-- ==== Sys2Proof/Word.lean ====
section
/-! DEFINITION. The bit-vector types of the block's buses and small fields. -/

namespace Sys2Proof

/-- A data bus or register of up to 128 bits, the largest `COUNTER_WIDTH` (00_scope.md R10). An instance of width
W uses the low W bits (log entry 2). Bit i has weight 2^i (20_memory.md R53). -/
abbrev Word := BitVec 128

/-- The byte in which one 5-bit ROM cell is written down (30_encoding.md R80). -/
abbrev Byte := BitVec 8

/-- A two-bit channel sample `ab`: bit 1 is channel A, bit 0 is channel B (30_encoding.md R76). -/
abbrev Sample := BitVec 2

end Sys2Proof
end

