-- ==== Sys2Proof/Config.lean ====
section
/-! DEFINITION. The configuration parameters of one instance of the block (10_state.md R29, R30). The spec leaves no
value open after a command, so there is no free value here. -/

namespace Sys2Proof

/-- `MODE` (00_scope.md R8, 30_encoding.md R83). `code3` is the field's value 3, which is no legal configuration: a
machine strapped so is refused (70_reset_and_hazards.md R262). -/
inductive Mode where
  | full
  | half
  | quad
  | code3
deriving DecidableEq, Repr

/-- `VARIANT`: which of the composed decoders the block is (00_scope.md R9, 30_encoding.md R84). -/
inductive Variant where
  | quadrature
  | incremental
  | indexedIncremental
  | indexOnly
deriving DecidableEq, Repr

/-- `INDEX_FIRST_EDGE`: whether the first index evaluation after reset can report an edge (00_scope.md R12). -/
inductive FirstEdge where
  | suppress
  | report
deriving DecidableEq, Repr

/-- The configuration of an instance (10_state.md R30). Every field is fixed when the block is built. -/
structure Config where
  mode : Mode
  variant : Variant
  counterWidth : Nat
  counterSigned : Bool
  indexFirstEdge : FirstEdge
deriving DecidableEq, Repr

/-- The defaults of 00_scope.md R9, R10 and R12. DESIGN CHOICE (unsafe, log entry 3): the spec gives `MODE` no
default, and this names FULL, the code 0. -/
def Config.standard : Config :=
  { mode := .full, variant := .indexedIncremental, counterWidth := 32, counterSigned := true,
    indexFirstEdge := .suppress }

end Sys2Proof
end

