-- ==== Sys2Proof/Syntax.lean ====
section
/-! DEFINITION. The commands of the port: the opcodes, the instruction type, what stands on the command pins, and the
assembler's statements. -/

namespace Sys2Proof

/-- The rows of the opcode map, by the field `CMD[5:3]` (30_encoding.md R73). -/
inductive Op where
  | update
  | reset
  | setCounter
  | readCounter
  | readPpc
  | indexUpdate
  | reserved110
  | reserved111
deriving DecidableEq, Repr

/-- A command: one constructor per row of the opcode table (30_encoding.md R73). The bits a command ignores
(R77) are kept as `unused`, so that a word and its instruction determine each other. Only `SET_COUNTER` has the
operand `DATA_IN` (R71). -/
inductive Instr where
  /-- `UPDATE a, b[, z]`, pattern `000zab`. -/
  | update (z a b : Bool)
  /-- `RESET`, pattern `001---`. -/
  | reset (unused : BitVec 3)
  /-- `SET_COUNTER v`, pattern `010---`, with `DATA_IN`. -/
  | setCounter (unused : BitVec 3) (dataIn : Word)
  /-- `READ_COUNTER`, pattern `011---`. -/
  | readCounter (unused : BitVec 3)
  /-- `READ_PPC`, pattern `100---`. -/
  | readPpc (unused : BitVec 3)
  /-- `INDEX_UPDATE z`, pattern `101z--`. -/
  | indexUpdate (z : Bool) (unused : BitVec 2)
  /-- The reserved opcode `110`. -/
  | reserved110 (unused : BitVec 3)
  /-- The reserved opcode `111`. -/
  | reserved111 (unused : BitVec 3)
deriving DecidableEq, Repr

/-- The row of the opcode map a command belongs to. -/
def Instr.op : Instr → Op
  | .update _ _ _ => .update
  | .reset _ => .reset
  | .setCounter _ _ => .setCounter
  | .readCounter _ => .readCounter
  | .readPpc _ => .readPpc
  | .indexUpdate _ _ => .indexUpdate
  | .reserved110 _ => .reserved110
  | .reserved111 _ => .reserved111

/-- What a command looks like on the port: the 6-bit word `CMD` and the bus `DATA_IN` (30_encoding.md R70). -/
structure Command where
  cmd : BitVec 6
  dataIn : Word
deriving DecidableEq, Repr

/-- The statements of the assembler (30_encoding.md R89), the source's other names among them. -/
inductive Asm where
  | update (a b : Bool)
  | updateZ (a b z : Bool)
  | reset
  | setCounter (v : Int)
  | setPosition (v : Int)
  | readCounter
  | counter
  | position
  | readPpc
  | indexUpdate (z : Bool)
deriving DecidableEq, Repr

end Sys2Proof
end

