-- ==== Sys2Proof/Machine/State.lean ====
section
/-! DEFINITION. The state of the block, the reasons a step can stop, and the state after reset. -/

namespace Sys2Proof.Machine

/-- The eight codes of the register `STATE`, in code order 0 to 7 (10_state.md R21, R22): the two neutral states and
three quarter states of each direction. -/
inductive FstState where
  | N0
  | F1
  | F2
  | F3
  | R1
  | R2
  | R3
  | N2
deriving DecidableEq, Repr

/-- The transition ROM (20_memory.md R50) as the cells that differ from the image of 40_transducer.md R109, addresses
strictly rising: an unlisted address reads as that image. The empty list is the hardware the spec defines. -/
abbrev Memory := List Host.Cell

/-- What the host drives on the input pins at one rising edge of `CLK` (30_encoding.md R70). -/
structure PortInput where
  rst : Bool
  cmdValid : Bool
  cmd : BitVec 6
  dataIn : Word
deriving DecidableEq, Repr

/-- Everything the spec gives the block (10_state.md R20), its configuration and its ROM, and the inputs still to
come. A register that is absent in the instance's variant keeps its field, which no command of that variant reads
or writes (log entry 7). -/
structure State where
  /-- The configuration (10_state.md R29). No step writes it. -/
  cfg : Config
  /-- The transition ROM (20_memory.md R50). No step writes it (R51). -/
  rom : Memory
  /-- `STATE` (10_state.md R21). -/
  fst : FstState
  /-- `LAST` (10_state.md R23). -/
  last : Sample
  /-- `COUNTER`, the low `COUNTER_WIDTH` bits (10_state.md R24, log entry 2). -/
  counter : Word
  /-- `ZLAST` (10_state.md R25). -/
  zlast : Bool
  /-- `ZPRIMED` (10_state.md R36). -/
  zprimed : Bool
  /-- `FAULT` (10_state.md R26). -/
  fault : Bool
  /-- `RESP_VALID` (10_state.md R32). -/
  respValid : Bool
  /-- `RESP_STATUS` (10_state.md R32). -/
  respStatus : BitVec 4
  /-- `RESP_DATA`, the low `COUNTER_WIDTH` bits (10_state.md R32, log entry 2). -/
  respData : Word
  /-- The model's own field: what the host drives at the coming edges, first edge first (10_state.md R27, log
  entry 5). -/
  inputs : List PortInput
deriving DecidableEq, Repr

/-- The reasons a step stops with a fault. -/
inductive Fault where
  /-- Raised by the transducer step when the ROM holds no cell at the address it reads (20_memory.md R50: addresses
  96 to 127 hold nothing). Safe. No legal configuration reaches it: `MODE` = 3 is refused first. -/
  | romHole (addr : Nat)
deriving DecidableEq, Repr

/-- The reasons a step is refused. -/
inductive Refusal where
  /-- Raised by `exec` for a command that has no meaning yet; safe. No arm of `exec` raises it. -/
  | notModelled (mnemonic : String)
  /-- Raised at every edge of a machine strapped with `MODE` = 3 (30_encoding.md R83: a model refuses it); safe. -/
  | modeNotLegal
  /-- Raised at every edge of a machine whose `COUNTER_WIDTH` is not 4 to 128 (00_scope.md R10); safe. -/
  | counterWidthNotLegal
  /-- Raised at every edge of a machine whose bound table is not `WF` (40_transducer.md R102: a model refuses it);
  safe. -/
  | tableNotWellFormed
deriving DecidableEq, Repr

/-- What an edge, or the execution of a command, answers. -/
abbrev Result := Host.Outcome State Fault Refusal

/-- An instance with configuration `cfg` and ROM `rom` just after `RST`, with `inputs` still to come (10_state.md
R33). -/
def State.afterRst (cfg : Config) (rom : Memory) (inputs : List PortInput) : State :=
  { cfg := cfg, rom := rom, fst := .N0, last := 0b11#2, counter := 0#128, zlast := false, zprimed := false,
    fault := false, respValid := false, respStatus := 0x0#4, respData := 0#128, inputs := inputs }

/-- The machine right after reset: the default configuration, the ROM the spec defines, no input presented (10_state.md
R33, log entries 3 and 5). -/
def State.reset : State := State.afterRst Config.standard [] []

end Sys2Proof.Machine
end

