-- ==== Sys2Proof/Machine/Operands.lean ====
section
/-! DEFINITION. Operand forms: field encodings, the two-bit input and its phases, the ROM address, and the reading of
a W-bit pattern as a number. -/

namespace Sys2Proof

/-- The 2-bit code of `MODE` (30_encoding.md R83). -/
def Mode.code : Mode → BitVec 2
  | .full => 0#2
  | .half => 1#2
  | .quad => 2#2
  | .code3 => 3#2

/-- The 2-bit code of `VARIANT` (30_encoding.md R84). -/
def Variant.code : Variant → BitVec 2
  | .quadrature => 0#2
  | .incremental => 1#2
  | .indexedIncremental => 2#2
  | .indexOnly => 3#2

/-- The 1-bit code of `INDEX_FIRST_EDGE` (10_state.md R30). -/
def FirstEdge.code : FirstEdge → BitVec 1
  | .suppress => 0#1
  | .report => 1#1

/-- Pulses per cycle of each step mode (30_encoding.md R85). `MODE` = 3 has none. -/
def Mode.ppc : Mode → Option Nat
  | .full => some 1
  | .half => some 2
  | .quad => some 4
  | .code3 => none

/-- The variants that have the decoder's registers `STATE` and `LAST` (10_state.md R20). -/
def Variant.hasDecoder : Variant → Bool
  | .quadrature => true
  | .incremental => true
  | .indexedIncremental => true
  | .indexOnly => false

/-- The variants that have the register `COUNTER` (10_state.md R20). -/
def Variant.hasCounter : Variant → Bool
  | .quadrature => false
  | .incremental => true
  | .indexedIncremental => true
  | .indexOnly => false

/-- The variants that have the registers `ZLAST` and `ZPRIMED` (10_state.md R20). -/
def Variant.hasIndex : Variant → Bool
  | .quadrature => false
  | .incremental => false
  | .indexedIncremental => true
  | .indexOnly => true

/-- `COUNTER_MIN` (00_scope.md R11). -/
def Config.counterMin (c : Config) : Int :=
  if c.counterSigned then -(2 ^ (c.counterWidth - 1) : Int) else 0

/-- `COUNTER_MAX` (00_scope.md R11). -/
def Config.counterMax (c : Config) : Int :=
  if c.counterSigned then (2 ^ (c.counterWidth - 1) : Int) - 1 else (2 ^ c.counterWidth : Int) - 1

/-- The low W bits of a bus, the rest zero: what an instance of width W sees of it (20_memory.md R53). -/
def Config.wires (c : Config) (x : Word) : Word :=
  (x.setWidth c.counterWidth).setWidth 128

/-- A W-bit pattern read as an integer: two's complement if `COUNTER_SIGNED`, unsigned otherwise (10_state.md R24). -/
def Config.counterValue (c : Config) (x : Word) : Int :=
  if c.counterSigned then (x.setWidth c.counterWidth).toInt else ((x.setWidth c.counterWidth).toNat : Int)

/-- An integer stored as W bits (42_decoder.md R153). -/
def Config.counterPattern (c : Config) (v : Int) : Word :=
  (BitVec.ofInt c.counterWidth v).setWidth 128

/-- `clamp(v, lo, hi)` (00_scope.md R14). -/
def clamp (v lo hi : Int) : Int :=
  if v < lo then lo else if hi < v then hi else v

/-- The input `IN = {A, B}` of an `UPDATE` (30_encoding.md R75, R76). -/
def sample (a b : Bool) : Sample :=
  BitVec.ofBool a ++ BitVec.ofBool b

/-- `popcount` of a two-bit value (00_scope.md R14). -/
def popcount (x : Sample) : Nat :=
  (x.getLsbD 1).toNat + (x.getLsbD 0).toNat

/-- `hamming(x, y) = popcount(x XOR y)` (00_scope.md R14). -/
def hamming (x y : Sample) : Nat :=
  popcount (x ^^^ y)

/-- The diagonal partner of a phase (00_scope.md R19). -/
def diagonal (p : Sample) : Sample :=
  p ^^^ 0b11#2

/-- `fwd(p)`: the next phase forward, in the order 11, 01, 00, 10 (00_scope.md R19). -/
def fwdPhase (p : Sample) : Sample :=
  if p = 0b11#2 then 0b01#2
  else if p = 0b01#2 then 0b00#2
  else if p = 0b00#2 then 0b10#2
  else 0b11#2

/-- `rev(p)`: the next phase backward (00_scope.md R19). -/
def revPhase (p : Sample) : Sample :=
  if p = 0b01#2 then 0b11#2
  else if p = 0b00#2 then 0b01#2
  else if p = 0b10#2 then 0b00#2
  else 0b10#2

/-- The four inputs in code order (30_encoding.md R76). -/
def allSamples : List Sample := [0b00#2, 0b01#2, 0b10#2, 0b11#2]

namespace Machine

/-- The eight states in code order (10_state.md R22). -/
def FstState.all : List FstState := [.N0, .F1, .F2, .F3, .R1, .R2, .R3, .N2]

/-- The 3-bit code of a state (10_state.md R22). -/
def FstState.code : FstState → BitVec 3
  | .N0 => 0#3
  | .F1 => 1#3
  | .F2 => 2#3
  | .F3 => 3#3
  | .R1 => 4#3
  | .R2 => 5#3
  | .R3 => 6#3
  | .N2 => 7#3

/-- The state of a 3-bit code: every code is a state (10_state.md R21). -/
def FstState.ofCode (c : BitVec 3) : FstState :=
  if c = 0#3 then .N0
  else if c = 1#3 then .F1
  else if c = 2#3 then .F2
  else if c = 3#3 then .F3
  else if c = 4#3 then .R1
  else if c = 5#3 then .R2
  else if c = 6#3 then .R3
  else .N2

/-- `PHASE(s)`: the identity input of a state (10_state.md R22). -/
def FstState.phase : FstState → Sample
  | .N0 => 0b11#2
  | .F1 => 0b01#2
  | .F2 => 0b00#2
  | .F3 => 0b10#2
  | .R1 => 0b10#2
  | .R2 => 0b00#2
  | .R3 => 0b01#2
  | .N2 => 0b00#2

/-- `SYNC(i)`: the target of the diagonal cell for input `i` in the spec's tables (40_transducer.md R108). -/
def sync (i : Sample) : FstState :=
  if i = 0b11#2 then .N0
  else if i = 0b01#2 then .F1
  else if i = 0b10#2 then .R1
  else .N2

/-- The ROM address `{MODE[1:0], STATE[2:0], IN[1:0]}` (20_memory.md R50). -/
def romAddr (m : Mode) (st : FstState) (i : Sample) : Nat :=
  (m.code ++ st.code ++ i).toNat

end Machine

end Sys2Proof
end

