-- ==== Sys2Proof/WellFormed.lean ====
section
/-! DEFINITION. Which configurations, commands and assembler statements are well formed. -/

namespace Sys2Proof

/-- `MODE` = 3 is not a legal configuration (30_encoding.md R83). -/
def Config.modeLegal (c : Config) : Bool := c.mode != .code3

/-- 4 ≤ `COUNTER_WIDTH` ≤ 128 (00_scope.md R10). -/
def Config.widthLegal (c : Config) : Bool := decide (4 ≤ c.counterWidth) && decide (c.counterWidth ≤ 128)

/-- A configuration a block can be built with (10_state.md R30). -/
def Config.wf (c : Config) : Bool := c.modeLegal && c.widthLegal

/-- A command whose `DATA_IN` fits the W wires of the instance's bus (30_encoding.md R70, R75). The other commands
have no operand that could fail to fit: every value of their bits is a command (R79). -/
def Instr.wf (c : Config) : Instr → Bool
  | .update _ _ _ => true
  | .reset _ => true
  | .setCounter _ d => decide (d.toNat < 2 ^ c.counterWidth)
  | .readCounter _ => true
  | .readPpc _ => true
  | .indexUpdate _ _ => true
  | .reserved110 _ => true
  | .reserved111 _ => true

/-- An operand of `SET_COUNTER v` lies in [COUNTER_MIN, COUNTER_MAX] (30_encoding.md R89). -/
def Config.inRange (c : Config) (v : Int) : Bool :=
  decide (c.counterMin ≤ v) && decide (v ≤ c.counterMax)

/-- An assembler statement the syntax of 30_encoding.md R89 allows. -/
def Asm.wf (c : Config) : Asm → Bool
  | .update _ _ => true
  | .updateZ _ _ _ => true
  | .reset => true
  | .setCounter v => c.inRange v
  | .setPosition v => c.inRange v
  | .readCounter => true
  | .counter => true
  | .position => true
  | .readPpc => true
  | .indexUpdate _ => true

end Sys2Proof
end

