-- ==== Sys2Proof/Decode.lean ====
section
/-! DEFINITION. Decoding a command word, then encoding one, and the assembler. -/

namespace Sys2Proof

/-- The opcode `CMD[5:3]` of a row (30_encoding.md R73). -/
def Op.code : Op → BitVec 3
  | .update => 0b000#3
  | .reset => 0b001#3
  | .setCounter => 0b010#3
  | .readCounter => 0b011#3
  | .readPpc => 0b100#3
  | .indexUpdate => 0b101#3
  | .reserved110 => 0b110#3
  | .reserved111 => 0b111#3

/-- The row of an opcode: every 3-bit value has exactly one (30_encoding.md R73, R79). -/
def Op.ofCode (c : BitVec 3) : Op :=
  if c = 0b000#3 then .update
  else if c = 0b001#3 then .reset
  else if c = 0b010#3 then .setCounter
  else if c = 0b011#3 then .readCounter
  else if c = 0b100#3 then .readPpc
  else if c = 0b101#3 then .indexUpdate
  else if c = 0b110#3 then .reserved110
  else .reserved111

/-- A row of the opcode map as the spec writes it, by match and mask (30_encoding.md R73). -/
structure OpcodeRow where
  op : Op
  pattern : BitVec 6
  mask : BitVec 6
deriving DecidableEq, Repr

/-- The column "match / mask" of the opcode map (30_encoding.md R73). -/
def opcodeMap : List OpcodeRow :=
  [⟨.update, 0x00#6, 0x38#6⟩, ⟨.reset, 0x08#6, 0x38#6⟩, ⟨.setCounter, 0x10#6, 0x38#6⟩,
   ⟨.readCounter, 0x18#6, 0x38#6⟩, ⟨.readPpc, 0x20#6, 0x38#6⟩, ⟨.indexUpdate, 0x28#6, 0x38#6⟩,
   ⟨.reserved110, 0x30#6, 0x38#6⟩, ⟨.reserved111, 0x38#6, 0x38#6⟩]

/-- Whether a word belongs to a row (30_encoding.md R73). -/
def OpcodeRow.matches (r : OpcodeRow) (w : BitVec 6) : Bool := w &&& r.mask == r.pattern

/-- The command on the pins (30_encoding.md R71, R75): total, because every 6-bit word is a command (R79). -/
def decode (c : Command) : Instr :=
  let z := c.cmd.getLsbD 2
  let a := c.cmd.getLsbD 1
  let b := c.cmd.getLsbD 0
  let low := c.cmd.extractLsb' 0 3
  match Op.ofCode (c.cmd.extractLsb' 3 3) with
  | .update => .update z a b
  | .reset => .reset low
  | .setCounter => .setCounter low c.dataIn
  | .readCounter => .readCounter low
  | .readPpc => .readPpc low
  | .indexUpdate => .indexUpdate z (c.cmd.extractLsb' 0 2)
  | .reserved110 => .reserved110 low
  | .reserved111 => .reserved111 low

/-- Why a number is not a command. -/
inductive DecodeError where
  /-- The number does not fit the six wires of `CMD` (30_encoding.md R70). -/
  | notSixBits
deriving DecidableEq, Repr

/-- A number read as a command word with `DATA_IN` beside it, rejected by name when it has more than six bits. -/
def decodeWord (w : Nat) (dataIn : Word) : Except DecodeError Instr :=
  if w < 64 then .ok (decode { cmd := BitVec.ofNat 6 w, dataIn := dataIn }) else .error .notSixBits

/-- The instruction the decoder reads from an opcode-table word. The operand `DATA_IN` lies above the table's bits and
is zero there; the two bits that fill `CMD` up to a byte are no wires, so a word that sets them is refused (log
entry 8). -/
def decodeTableWord (_nbits w : Nat) : Option Instr := (decodeWord w 0#128).toOption

/-- The word and bus value that present a command (30_encoding.md R71, R73). `DATA_IN` is written as 0 where the
command ignores it (R77, R89). -/
def encode : Instr → Command
  | .update z a b => ⟨Op.code .update ++ BitVec.ofBool z ++ BitVec.ofBool a ++ BitVec.ofBool b, 0#128⟩
  | .reset u => ⟨Op.code .reset ++ u, 0#128⟩
  | .setCounter u d => ⟨Op.code .setCounter ++ u, d⟩
  | .readCounter u => ⟨Op.code .readCounter ++ u, 0#128⟩
  | .readPpc u => ⟨Op.code .readPpc ++ u, 0#128⟩
  | .indexUpdate z u => ⟨Op.code .indexUpdate ++ BitVec.ofBool z ++ u, 0#128⟩
  | .reserved110 u => ⟨Op.code .reserved110 ++ u, 0#128⟩
  | .reserved111 u => ⟨Op.code .reserved111 ++ u, 0#128⟩

/-- What the assembler makes of a statement: the words of 30_encoding.md R89. -/
def Asm.command (c : Config) : Asm → Command
  | .update a b => ⟨0b0000#4 ++ BitVec.ofBool a ++ BitVec.ofBool b, 0#128⟩
  | .updateZ a b z => ⟨0b000#3 ++ BitVec.ofBool z ++ BitVec.ofBool a ++ BitVec.ofBool b, 0#128⟩
  | .reset => ⟨0x08#6, 0#128⟩
  | .setCounter v => ⟨0x10#6, c.counterPattern v⟩
  | .setPosition v => ⟨0x10#6, c.counterPattern v⟩
  | .readCounter => ⟨0x18#6, 0#128⟩
  | .counter => ⟨0x18#6, 0#128⟩
  | .position => ⟨0x18#6, 0#128⟩
  | .readPpc => ⟨0x20#6, 0#128⟩
  | .indexUpdate z => ⟨if z then 0x2C#6 else 0x28#6, 0#128⟩

/-- The assembler refuses a statement whose operand is out of range (30_encoding.md R89). -/
def Asm.assemble (c : Config) (a : Asm) : Option Command :=
  if a.wf c then some (a.command c) else none

end Sys2Proof
end

