-- ==== Sys2Proof/Machine/Flags.lean ====
section
/-! DEFINITION. The outcomes a command reports and their status codes: the block has no flag register, and `RESP_STATUS`
is its only flag-like output (10_state.md R28). -/

namespace Sys2Proof.Machine

/-- A transducer output symbol (30_encoding.md R81). -/
inductive Output where
  | neutral
  | forward
  | reverse
  | errorSentinel
deriving DecidableEq, Repr

/-- The symbol of a 2-bit code (30_encoding.md R81). -/
def Output.ofCode (c : BitVec 2) : Output :=
  if c = 0b00#2 then .neutral
  else if c = 0b01#2 then .forward
  else if c = 0b10#2 then .reverse
  else .errorSentinel

/-- The signed movement of an update (00_scope.md R16). -/
inductive Movement where
  | forward
  | reverse
deriving DecidableEq, Repr

/-- The movement as the number it adds to the counter (00_scope.md R16). -/
def Movement.toInt : Movement → Int
  | .forward => 1
  | .reverse => -1

/-- The four recoverable errors, one per directed diagonal jump (30_encoding.md R87). -/
inductive DiagonalError where
  | e00to11
  | e01to10
  | e10to01
  | e11to00
deriving DecidableEq, Repr

/-- The error of the diagonal jump that leaves `source` (30_encoding.md R87). -/
def DiagonalError.leaving (source : Sample) : DiagonalError :=
  if source = 0b00#2 then .e00to11
  else if source = 0b01#2 then .e01to10
  else if source = 0b10#2 then .e10to01
  else .e11to00

/-- The sample an error's jump leaves (30_encoding.md R87). -/
def DiagonalError.source : DiagonalError → Sample
  | .e00to11 => 0b00#2
  | .e01to10 => 0b01#2
  | .e10to01 => 0b10#2
  | .e11to00 => 0b11#2

/-- The result of an update: `Ok(None)`, `Ok(Some(m))` or `Err(E)` (00_scope.md R16). -/
inductive UpdateResult where
  | ok (m : Option Movement)
  | err (e : DiagonalError)
deriving DecidableEq, Repr

/-- The statuses a command can report (30_encoding.md R86). -/
inductive Status where
  | ok
  | okForward
  | okReverse
  | err (e : DiagonalError)
  | illegalCommand
  | fault
deriving DecidableEq, Repr

/-- The 4-bit code of a status (30_encoding.md R86, R87). -/
def Status.code : Status → BitVec 4
  | .ok => 0x0#4
  | .okForward => 0x1#4
  | .okReverse => 0x2#4
  | .err e => 0x4#4 ||| e.source.setWidth 4
  | .illegalCommand => 0x8#4
  | .fault => 0xF#4

/-- `status_of(r)` (42_decoder.md R151). -/
def UpdateResult.status : UpdateResult → Status
  | .ok none => .ok
  | .ok (some .forward) => .okForward
  | .ok (some .reverse) => .okReverse
  | .err e => .err e

/-- Whether a code of `RESP_STATUS` is reserved, never produced (30_encoding.md R86). -/
def statusReserved (c : BitVec 4) : Bool :=
  c == 0x3#4 || (0x9#4 ≤ c && c ≤ 0xE#4)

end Sys2Proof.Machine
end

