-- ==== Sys2Proof/Machine/Ops.lean ====
section
/-! DEFINITION. The operations the commands share: reading the ROM, the property WF of a table, the response, the fatal
defect and the reset that ends it, and the preamble that runs before every command. -/

namespace Sys2Proof.Machine

/-! ### The transition ROM -/

/-- The FULL image, addresses 0 to 31 (40_transducer.md R109). -/
def fullImage : List Byte :=
  [0x1C, 0x04, 0x10, 0x00, 0x08, 0x04, 0x10, 0x00, 0x08, 0x04, 0x0C, 0x00, 0x08, 0x04, 0x0C, 0x01,
   0x14, 0x04, 0x10, 0x00, 0x14, 0x18, 0x10, 0x00, 0x14, 0x18, 0x10, 0x02, 0x1C, 0x18, 0x0C, 0x00]

/-- The HALF image, addresses 32 to 63 (40_transducer.md R109). -/
def halfImage : List Byte :=
  [0x1C, 0x04, 0x10, 0x00, 0x1D, 0x04, 0x10, 0x00, 0x03, 0x03, 0x03, 0x03, 0x1C, 0x04, 0x0C, 0x01,
   0x1E, 0x04, 0x10, 0x00, 0x03, 0x03, 0x03, 0x03, 0x1C, 0x18, 0x10, 0x02, 0x1C, 0x18, 0x0C, 0x00]

/-- The QUAD image, addresses 64 to 95 (40_transducer.md R109). -/
def quadImage : List Byte :=
  [0x1C, 0x05, 0x12, 0x00, 0x1D, 0x04, 0x10, 0x02, 0x03, 0x03, 0x03, 0x03, 0x03, 0x03, 0x03, 0x03,
   0x1E, 0x04, 0x10, 0x01, 0x03, 0x03, 0x03, 0x03, 0x03, 0x03, 0x03, 0x03, 0x1C, 0x06, 0x11, 0x00]

/-- What an unlisted address reads as: the image of 40_transducer.md R109, and nothing from 96 on (20_memory.md
R50). -/
def romImage (addr : Nat) : Option Byte := (fullImage ++ halfImage ++ quadImage)[addr]?

/-- `MemRead(addr, 1)` (00_scope.md R15): one cell, or nothing at an address that holds none (20_memory.md R50). -/
def romRead (m : Memory) (addr : Nat) : Option Byte :=
  match romImage addr with
  | none => none
  | some d => some ((m.lookup addr).getD d)

/-- One entry of the canonical form: an address that holds a cell, a byte that is a 5-bit cell, and not the cell the
address reads as unlisted. -/
def Memory.entryOk (e : Host.Cell) : Bool :=
  decide (e.1 < 96) && decide (e.2.toNat < 32) && romImage e.1 != some e.2

/-- The canonical form of the ROM's data: addresses strictly rising, every entry a cell that differs from what its
address reads as unlisted. -/
def Memory.wf : Memory → Bool
  | [] => true
  | [e] => Memory.entryOk e
  | e :: f :: rest => Memory.entryOk e && decide (e.1 < f.1) && Memory.wf (f :: rest)

/-- A transition: next state and output symbol (40_transducer.md R100). -/
structure Transition where
  next : FstState
  out : Output
deriving DecidableEq, Repr

/-- A cell read as a transition: `cell[4:2]` and `cell[1:0]` (30_encoding.md R80). -/
def Transition.ofCell (b : Byte) : Transition :=
  { next := FstState.ofCode (b.extractLsb' 2 3), out := Output.ofCode (b.extractLsb' 0 2) }

/-- The cell `T[state][input]` of a mode's table (20_memory.md R51). -/
def tableCell (m : Memory) (mode : Mode) (st : FstState) (i : Sample) : Option Byte :=
  romRead m (romAddr mode st i)

/-- The transition `T[state][input]` of a mode's table (40_transducer.md R100). -/
def transition (m : Memory) (mode : Mode) (st : FstState) (i : Sample) : Option Transition :=
  (tableCell m mode st i).map Transition.ofCell

/-! ### The property WF of a table -/

/-- The states a set of states leads to in one step. -/
def successors (m : Memory) (mode : Mode) (set : List FstState) : List FstState :=
  set.flatMap fun st => allSamples.filterMap fun i => (transition m mode st i).map Transition.next

/-- A set of states together with everything it leads to in one step, in code order. -/
def grow (m : Memory) (mode : Mode) (set : List FstState) : List FstState :=
  FstState.all.filter fun st => set.contains st || (successors m mode set).contains st

/-- Growing a set until it no longer changes, at most `fuel` times. -/
def growUntil (m : Memory) (mode : Mode) : Nat → List FstState → List FstState
  | 0, set => set
  | fuel + 1, set => if grow m mode set = set then set else growUntil m mode fuel (grow m mode set)

/-- The reachable states of a mode's table: those the transducer can enter from `N0` (00_scope.md R18,
40_transducer.md R113). There are eight states, so seven growths reach all of them. -/
def reachable (m : Memory) (mode : Mode) : List FstState := growUntil m mode 8 [.N0]

/-- Whether a transition is the one given. -/
def hasTransition (m : Memory) (mode : Mode) (st : FstState) (i : Sample) (p : Transition → Bool) : Bool :=
  match transition m mode st i with
  | none => false
  | some t => p t

/-- WF item 1, totality: each of the 32 cells holds a 5-bit transition (40_transducer.md R102). -/
def wfTotal (m : Memory) (mode : Mode) : Bool :=
  FstState.all.all fun st => allSamples.all fun i =>
    match tableCell m mode st i with
    | none => false
    | some b => decide (b.toNat < 32)

/-- WF item 2, stutter: a reachable state's identity input keeps it and outputs Neutral (40_transducer.md R102). -/
def wfStutter (m : Memory) (mode : Mode) : Bool :=
  (reachable m mode).all fun st => hasTransition m mode st st.phase fun t => t.next == st && t.out == .neutral

/-- WF item 3, diagonal: a reachable state outputs Neutral on its diagonal inputs (40_transducer.md R102). -/
def wfDiagonal (m : Memory) (mode : Mode) : Bool :=
  (reachable m mode).all fun st => allSamples.all fun i =>
    hamming st.phase i != 2 || hasTransition m mode st i fun t => t.out == .neutral

/-- The outputs along a list of samples from a state (40_transducer.md R116). -/
def outputsFrom (m : Memory) (mode : Mode) : FstState → List Sample → List Output
  | _, [] => []
  | st, i :: rest =>
    match transition m mode st i with
    | none => []
    | some t => t.out :: outputsFrom m mode t.next rest

/-- The clean forward cycle from phase `11` (40_transducer.md R103). -/
def forwardCycle : List Sample := [0b01#2, 0b00#2, 0b10#2, 0b11#2]

/-- The clean reverse cycle from phase `11` (40_transducer.md R103). -/
def reverseCycle : List Sample := [0b10#2, 0b00#2, 0b01#2, 0b11#2]

/-- Where a mode emits a movement along one clean cycle (40_transducer.md R101): `o` is the movement's symbol. -/
def emissions (mode : Mode) (o : Output) : List Output :=
  match mode with
  | .full => [.neutral, .neutral, .neutral, o]
  | .half => [.neutral, o, .neutral, o]
  | .quad => [o, o, o, o]
  | .code3 => []

/-- WF item 4, cycle sums: from `N0` the clean cycles emit exactly at the mode's emission points (40_transducer.md
R101, R102). -/
def wfCycles (m : Memory) (mode : Mode) : Bool :=
  outputsFrom m mode .N0 forwardCycle == emissions mode .forward &&
    outputsFrom m mode .N0 reverseCycle == emissions mode .reverse

/-- WF item 5, sentinel rows: every cell of an unreachable row outputs ErrorSentinel (40_transducer.md R102). The next
state such a cell holds is never observable and is left open (93_implementation_defined.md row 12, log entry 4). -/
def wfSentinelRows (m : Memory) (mode : Mode) : Bool :=
  FstState.all.all fun st => (reachable m mode).contains st ||
    allSamples.all fun i => hasTransition m mode st i fun t => t.out == .errorSentinel

/-- WF item 6: no cell of a reachable row outputs ErrorSentinel (40_transducer.md R102). -/
def wfNoReachableSentinel (m : Memory) (mode : Mode) : Bool :=
  (reachable m mode).all fun st => allSamples.all fun i =>
    hasTransition m mode st i fun t => t.out != .errorSentinel

/-- The property `WF` of the table bound by `mode` (40_transducer.md R102). -/
def tableWF (m : Memory) (mode : Mode) : Bool :=
  wfTotal m mode && wfStutter m mode && wfDiagonal m mode && wfCycles m mode && wfSentinelRows m mode &&
    wfNoReachableSentinel m mode

/-! ### What a model refuses -/

/-- Why no block can be built as this state says, if so: `MODE` = 3 (30_encoding.md R83), a width outside 4 to 128
(00_scope.md R10), or a bound table that is not `WF` (40_transducer.md R102). -/
def State.buildProblem (s : State) : Option Refusal :=
  if !s.cfg.modeLegal then some .modeNotLegal
  else if !s.cfg.widthLegal then some .counterWidthNotLegal
  else if !tableWF s.rom s.cfg.mode then some .tableNotWellFormed
  else none

/-! ### Updates of the state -/

/-- `respond(status, data)` (00_scope.md R15): every accepted command writes the three response registers
(10_state.md R32). -/
def State.respond (s : State) (st : Status) (data : Word) : State :=
  { s with respValid := true, respStatus := st.code, respData := data }

/-- Writing `STATE` and `LAST`, which an update commits together (42_decoder.md R154). -/
def State.setPhase (s : State) (fst : FstState) (last : Sample) : State :=
  { s with fst := fst, last := last }

/-- Writing `COUNTER`. -/
def State.setCounter (s : State) (c : Word) : State :=
  { s with counter := c }

/-- Writing `ZLAST` and `ZPRIMED`. -/
def State.setIndex (s : State) (zlast zprimed : Bool) : State :=
  { s with zlast := zlast, zprimed := zprimed }

/-- Setting the latch `FAULT` (10_state.md R26). -/
def State.setFault (s : State) : State :=
  { s with fault := true }

/-- The response to a command that is reserved or illegal in the variant (60_exceptions.md R224). -/
def State.respondIllegal (s : State) : State := s.respond .illegalCommand 0#128

/-- `raise FAULT`: the writes of the command are discarded, so `s` is the state from before it; the latch is set and
the response is 0xF (60_exceptions.md R222). The block has no handler to enter and saves nothing (R220, R228). -/
def State.raiseFault (s : State) : State := s.setFault.respond .fault 0#128

/-- `RST`: the registers the variant has take their reset values, whatever they held; it is the only way out of the
stopped state (70_reset_and_hazards.md R250, 60_exceptions.md R229). -/
def State.rst (s : State) : State :=
  { s with
    fst := if s.cfg.variant.hasDecoder then .N0 else s.fst
    last := if s.cfg.variant.hasDecoder then 0b11#2 else s.last
    counter := if s.cfg.variant.hasCounter then 0#128 else s.counter
    zlast := if s.cfg.variant.hasIndex then false else s.zlast
    zprimed := if s.cfg.variant.hasIndex then false else s.zprimed
    fault := false
    respValid := false
    respStatus := 0x0#4
    respData := 0#128 }

/-- An edge that accepts no command and takes no reset: only `RESP_VALID` changes (30_encoding.md R70, 60_exceptions.md
R236). -/
def State.idle (s : State) : State := { s with respValid := false }

/-! ### The command preamble -/

/-- Which command is legal in which variant (30_encoding.md R78). -/
def legal : Op → Variant → Bool
  | .update, v => v.hasDecoder
  | .reset, _ => true
  | .setCounter, v => v.hasCounter
  | .readCounter, v => v.hasCounter
  | .readPpc, v => v.hasDecoder
  | .indexUpdate, .indexOnly => true
  | .indexUpdate, _ => false
  | .reserved110, _ => false
  | .reserved111, _ => false

/-- The preamble that runs before the body of every command (60_exceptions.md R225), after the refusals of a machine
that cannot be built. -/
def command (op : Op) (body : State → Result) (s : State) : Result :=
  match s.buildProblem with
  | some r => .refused r
  | none =>
    if s.fault then .next (s.respond .fault 0#128)
    else if !legal op s.cfg.variant then .next s.respondIllegal
    else body s

end Sys2Proof.Machine
end

