-- ==== Sys2Proof/Machine/Index.lean ====
section
/-! DEFINITION. The index decoder (43_index.md section 1): INDEX_EDGE and I_RESET, and the command INDEX_UPDATE. -/

namespace Sys2Proof.Machine

/-- The edge `INDEX_EDGE(z)` returns (43_index.md R191): z high after a low, suppressed on the first evaluation unless
`INDEX_FIRST_EDGE` = REPORT. -/
def indexEdge (s : State) (z : Bool) : Bool :=
  z && !s.zlast && (s.zprimed || s.cfg.indexFirstEdge == .report)

/-- The writes of `INDEX_EDGE(z)` (43_index.md R191). -/
def State.evaluateIndex (s : State) (z : Bool) : State := s.setIndex z true

/-- `I_RESET` (43_index.md R194). -/
def State.iReset (s : State) : State := s.setIndex false false

/-- `zext_W(edge)` (30_encoding.md R88). -/
def edgeData (edge : Bool) : Word := (BitVec.ofBool edge).setWidth 128

/-- `INDEX_UPDATE z` (43_index.md R192). -/
def execIndexUpdate (z : Bool) (s : State) : Result :=
  command .indexUpdate (fun s => .next ((s.evaluateIndex z).respond .ok (edgeData (indexEdge s z)))) s

end Sys2Proof.Machine
end

