-- ==== Sys2Proof/Machine/Transducer.lean ====
section
/-! DEFINITION. The state transducer (40_transducer.md): STEP and T_RESET. -/

namespace Sys2Proof.Machine

/-- What the transducer's lookup gives: no cell at the address, the internal defect, or a next state with a movement
or Neutral. An ErrorSentinel is never returned as an output (40_transducer.md R111). -/
inductive FstStep where
  | hole (addr : Nat)
  | defect
  | moved (next : FstState) (m : Option Movement)
deriving DecidableEq, Repr

/-- A transition's output as a movement or Neutral; ErrorSentinel is the defect (40_transducer.md R110). -/
def Transition.toStep (t : Transition) : FstStep :=
  match t.out with
  | .neutral => .moved t.next none
  | .forward => .moved t.next (some .forward)
  | .reverse => .moved t.next (some .reverse)
  | .errorSentinel => .defect

/-- `STEP(IN)`: one lookup of `T[STATE][IN]` in the table `MODE` binds (40_transducer.md R110). Writing `STATE` is left
to the calling command, which commits all its writes together (00_scope.md R15). -/
def fstStep (s : State) (i : Sample) : FstStep :=
  match transition s.rom s.cfg.mode s.fst i with
  | none => .hole (romAddr s.cfg.mode s.fst i)
  | some t => t.toStep

/-- `T_RESET`: `STATE` becomes `N0` and nothing else changes (40_transducer.md R112). -/
def State.tReset (s : State) : State := s.setPhase .N0 s.last

end Sys2Proof.Machine
end

