-- ==== Sys2Proof/Machine/Validator.lean ====
section
/-! DEFINITION. The Gray-code validator (41_validator.md): VALIDATE and V_RESET. -/

namespace Sys2Proof.Machine

/-- `VALIDATE(IN)` against the last-seen input: an error exactly on a diagonal jump (41_validator.md R130). Writing
`LAST` is left to the calling command (00_scope.md R15); the verdict reads neither `STATE` nor `MODE` (R134). -/
def validate (last i : Sample) : Option DiagonalError :=
  if hamming last i = 2 then some (DiagonalError.leaving last) else none

/-- `V_RESET`: `LAST` becomes `11` and nothing else changes (41_validator.md R132). -/
def State.vReset (s : State) : State := s.setPhase s.fst 0b11#2

end Sys2Proof.Machine
end

