-- ==== Sys2Proof/Machine/Decoder.lean ====
section
/-! DEFINITION. The quadrature, incremental and indexed incremental decoders (42_decoder.md, 43_index.md section 2), and
the commands UPDATE, RESET, SET_COUNTER, READ_COUNTER and READ_PPC. -/

namespace Sys2Proof.Machine

/-- The resolution of the two components' answers: the validator's error wins, and a movement beside it is dropped
(42_decoder.md R150, R151). -/
def resolve (v : Option DiagonalError) (m : Option Movement) : UpdateResult :=
  match v with
  | some e => .err e
  | none => .ok m

/-- `QDECODE(IN)` and what an update does with its result (42_decoder.md R150, R154): both components run on the same
input, `STATE` and `LAST` are written, and `finish` makes the command's other writes and its response. On the internal
defect nothing of the command is committed (60_exceptions.md R222). -/
def qdecode (finish : UpdateResult → State → State) (i : Sample) (s : State) : Result :=
  match fstStep s i with
  | .hole a => .fault (.romHole a)
  | .defect => .next s.raiseFault
  | .moved next m => .next (finish (resolve (validate s.last i) m) (s.setPhase next i))

/-- `SAT_ADD(c, m)` stored as W bits: the exact sum clamped to the counter's bounds (42_decoder.md R153). -/
def satAdd (c : Config) (x : Word) (m : Movement) : Word :=
  c.counterPattern (clamp (c.counterValue x + m.toInt) c.counterMin c.counterMax)

/-- The counter after an update's result: a movement is added, anything else leaves it (42_decoder.md R152). -/
def countResult (c : Config) (x : Word) : UpdateResult → Word
  | .ok (some m) => satAdd c x m
  | .ok none => x
  | .err _ => x

/-- The rest of an `UPDATE` in QUADRATURE: the response alone (42_decoder.md R165). -/
def finishQuadrature (r : UpdateResult) (s : State) : State := s.respond r.status 0#128

/-- The rest of an `UPDATE` in INCREMENTAL: the counter and the response (42_decoder.md R152). -/
def finishIncremental (r : UpdateResult) (s : State) : State :=
  (s.setCounter (countResult s.cfg s.counter r)).respond r.status 0#128

/-- The rest of an `UPDATE` in INDEXED_INCREMENTAL: the movement, then the index evaluation, whose edge forces the
counter to zero after the movement; the response reports the quadrature result only (43_index.md R196, R200). -/
def finishIndexed (z : Bool) (r : UpdateResult) (s : State) : State :=
  ((s.setCounter (if indexEdge s z then 0#128 else countResult s.cfg s.counter r)).evaluateIndex z).respond
    r.status 0#128

/-- `UPDATE` by variant (42_decoder.md R165). INDEX_ONLY has no decoder, and there the command is illegal. -/
def updateBody (z a b : Bool) (s : State) : Result :=
  match s.cfg.variant with
  | .quadrature => qdecode finishQuadrature (sample a b) s
  | .incremental => qdecode finishIncremental (sample a b) s
  | .indexedIncremental => qdecode (finishIndexed z) (sample a b) s
  | .indexOnly => .next s.respondIllegal

/-- `UPDATE a, b[, z]` (42_decoder.md R165). -/
def execUpdate (z a b : Bool) (s : State) : Result := command .update (updateBody z a b) s

/-- `Q_RESET`: both sub-components (42_decoder.md R155). -/
def State.qReset (s : State) : State := s.tReset.vReset

/-- `RESET` by variant (42_decoder.md R156, 43_index.md R194, R198). -/
def State.commandReset (s : State) : State :=
  match s.cfg.variant with
  | .quadrature => s.qReset
  | .incremental => s.qReset.setCounter 0#128
  | .indexedIncremental => (s.qReset.setCounter 0#128).iReset
  | .indexOnly => s.iReset

/-- `RESET` (42_decoder.md R156). -/
def execReset (s : State) : Result :=
  command .reset (fun s => .next (s.commandReset.respond .ok 0#128)) s

/-- `SET_COUNTER v`: `COUNTER` takes the W wires of `DATA_IN` (42_decoder.md R160). -/
def execSetCounter (dataIn : Word) (s : State) : Result :=
  command .setCounter (fun s => .next ((s.setCounter (s.cfg.wires dataIn)).respond .ok 0#128)) s

/-- `READ_COUNTER` (42_decoder.md R162). -/
def execReadCounter (s : State) : Result :=
  command .readCounter (fun s => .next (s.respond .ok (s.cfg.wires s.counter))) s

/-- `READ_PPC`: the pulses per cycle of `MODE`, zero-extended (42_decoder.md R164). -/
def readPpcBody (s : State) : Result :=
  match s.cfg.mode.ppc with
  | none => .refused .modeNotLegal
  | some n => .next (s.respond .ok (BitVec.ofNat 128 n))

/-- `READ_PPC` (42_decoder.md R164). -/
def execReadPpc (s : State) : Result := command .readPpc readPpcBody s

end Sys2Proof.Machine
end

