-- ==== Sys2Proof/Machine/Reserved.lean ====
section
/-! DEFINITION. The two reserved opcodes (60_exceptions.md R224): legal in no variant, so the preamble answers them. -/

namespace Sys2Proof.Machine

/-- The reserved opcode `110` (60_exceptions.md R224). -/
def execReserved110 (s : State) : Result := command .reserved110 (fun s => .next s.respondIllegal) s

/-- The reserved opcode `111` (60_exceptions.md R224). -/
def execReserved111 (s : State) : Result := command .reserved111 (fun s => .next s.respondIllegal) s

end Sys2Proof.Machine
end

