-- ==== Sys2Proof/Machine/Dispatch.lean ====
section
/-! DEFINITION. The dispatch from a command to its meaning, one arm per row of the opcode table. -/

namespace Sys2Proof.Machine

/-- The execution of a command (30_encoding.md R74). The ignored bits (R77) reach no meaning. -/
def exec (i : Instr) (s : State) : Host.Outcome State Fault Refusal :=
  match i with
  | .update z a b => Sys2Proof.Machine.execUpdate z a b s
  | .reset _ => Sys2Proof.Machine.execReset s
  | .setCounter _ dataIn => Sys2Proof.Machine.execSetCounter dataIn s
  | .readCounter _ => Sys2Proof.Machine.execReadCounter s
  | .readPpc _ => Sys2Proof.Machine.execReadPpc s
  | .indexUpdate z _ => Sys2Proof.Machine.execIndexUpdate z s
  | .reserved110 _ => Sys2Proof.Machine.execReserved110 s
  | .reserved111 _ => Sys2Proof.Machine.execReserved111 s

end Sys2Proof.Machine
end

