-- ==== Sys2Proof/Machine/Port.lean ====
section
/-! DEFINITION. The command port (30_encoding.md R70): what one rising edge of `CLK` does with what stands on the pins. -/

namespace Sys2Proof.Machine

/-- The pins when the host presents nothing: no reset, no command (30_encoding.md R70). -/
def PortInput.none : PortInput := { rst := false, cmdValid := false, cmd := 0#6, dataIn := 0#128 }

/-- The pins at the coming edge. A host with nothing left to present leaves them idle (log entry 5). -/
def State.pins (s : State) : PortInput := s.inputs.headD PortInput.none

/-- The state once the coming edge has used up its input. -/
def State.takeInput (s : State) : State := { s with inputs := s.inputs.tail }

/-- The command on the pins. -/
def PortInput.command (p : PortInput) : Command := { cmd := p.cmd, dataIn := p.dataIn }

/-- One rising edge: `RST` wins over `CMD_VALID` (70_reset_and_hazards.md R252), an accepted command is executed
completely (30_encoding.md R70, R265), any other edge is idle. A machine that cannot be built is refused. -/
def clockEdge (p : PortInput) (s : State) : Result :=
  match s.buildProblem with
  | some r => .refused r
  | none =>
    if p.rst then .next s.rst
    else if p.cmdValid then exec (decode p.command) s
    else .next s.idle

/-- A command presented on the next edge, ahead of what was still to come. -/
def State.present (s : State) (c : Command) : State :=
  { s with inputs := { rst := false, cmdValid := true, cmd := c.cmd, dataIn := c.dataIn } :: s.inputs }

/-- An opcode-table word presented on the next edge with `DATA_IN` = 0. A number with more than six bits is no command,
and nothing presents it (log entry 8). -/
def State.presentWord (s : State) (w : Nat) : State :=
  if w < 64 then s.present { cmd := BitVec.ofNat 6 w, dataIn := 0#128 } else s

end Sys2Proof.Machine
end

