-- ==== Sys2Proof/Machine/Step.lean ====
section
/-! DEFINITION. One step of the block: one rising edge of `CLK` (70_reset_and_hazards.md R265). -/

namespace Sys2Proof.Machine

/-- One rising edge of `CLK` with the input that stands first in `State.inputs` (30_encoding.md R70). -/
def step (s : State) : Host.Outcome State Fault Refusal := clockEdge s.pins s.takeInput

/-- The state with an opcode-table word as the next command the host presents (log entry 5). -/
def State.withFetchWord (s : State) (_nbits w : Nat) : State := s.presentWord w

end Sys2Proof.Machine
end

