-- ==== Sys2Proof/Safety.lean ====
section
/-! DEFINITION. What counts as a state a block can be in and as a good run: the predicates the statements use. -/

namespace Sys2Proof.Machine

/-- A machine that can be built: `MODE`, `COUNTER_WIDTH` and the bound table are legal (70_reset_and_hazards.md R254,
R262; 40_transducer.md R102). -/
abbrev State.built (s : State) : Prop := s.buildProblem = none

/-- A command that the preamble lets run: the machine can be built, the latch is clear, and the command is legal in the
variant (60_exceptions.md R225). -/
abbrev State.accepts (s : State) (op : Op) : Prop :=
  s.built ∧ s.fault = false ∧ legal op s.cfg.variant = true

/-- `STATE` is a reachable state of the bound table (40_transducer.md R113). -/
abbrev State.onTable (s : State) : Prop := s.fst ∈ reachable s.rom s.cfg.mode

/-- A machine as every run from reset keeps it: it can be built, `STATE` is reachable, and the latch is clear. -/
abbrev State.sound (s : State) : Prop := s.built ∧ s.onTable ∧ s.fault = false

/-- The tables are those of 40_transducer.md R105 to R107. -/
abbrev State.specTables (s : State) : Prop := s.rom = []

/-- `LAST = PHASE(STATE)`, a property of the spec's tables (40_transducer.md R114). -/
abbrev State.phaseLocked (s : State) : Prop := s.last = s.fst.phase

/-- The registers hold what a run from reset can put there: canonical ROM data, W-bit patterns in `COUNTER` and
`RESP_DATA`, a produced status, 0xF exactly while the latch is set, `ZLAST` clear until an index sample is taken, and
reset values in the registers the variant lacks. -/
structure State.wf (s : State) : Prop where
  rom : Memory.wf s.rom = true
  counter : s.cfg.wires s.counter = s.counter
  respData : s.cfg.wires s.respData = s.respData
  status : statusReserved s.respStatus = false
  latch : s.respStatus = Status.code .fault ↔ s.fault = true
  unprimed : s.zprimed = false → s.zlast = false
  noDecoder : s.cfg.variant.hasDecoder = false → s.fst = .N0 ∧ s.last = 0b11#2
  noCounter : s.cfg.variant.hasCounter = false → s.counter = 0#128
  noIndex : s.cfg.variant.hasIndex = false → s.zlast = false ∧ s.zprimed = false

/-- The status of an update whose sample `i` follows `last` and whose cell outputs `o`, as the table of 42_decoder.md
R151 lists it, in numbers. -/
def tableStatus (last i : Sample) (o : Output) : BitVec 4 :=
  if o = .errorSentinel then 0xF#4
  else if hamming last i = 2 then 0x4#4 ||| last.setWidth 4
  else if o = .forward then 0x1#4
  else if o = .reverse then 0x2#4
  else 0x0#4

/-- The counter pattern `x` after such an update: one more or one less within the bounds on a movement without an
error, else unchanged (42_decoder.md R152, R153). -/
def tableCount (c : Config) (x : Word) (last i : Sample) (o : Output) : Word :=
  if hamming last i = 2 then x
  else if o = .forward then c.counterPattern (min (c.counterValue x + 1) c.counterMax)
  else if o = .reverse then c.counterPattern (max (c.counterValue x - 1) c.counterMin)
  else x

/-- The state the transducer ends in after a list of samples (00_scope.md R18). -/
def stateAfter (m : Memory) (mode : Mode) : FstState → List Sample → Option FstState
  | st, [] => some st
  | st, i :: rest => (transition m mode st i).bind fun t => stateAfter m mode t.next rest

/-- `RESP_DATA` after each of a list of commands executed one after another, if each answers a next state. -/
def dataOf : State → List Instr → Option (List Word)
  | _, [] => some []
  | s, i :: rest =>
    match exec i s with
    | .next t => (dataOf t rest).map fun l => t.respData :: l
    | .fault _ => none
    | .refused _ => none

/-- Two words the block cannot tell apart in a variant: the same opcode, and the same bits where the command uses them
(30_encoding.md R77). -/
def sameCommand (v : Variant) (c d : Command) : Prop :=
  c.cmd.extractLsb' 3 3 = d.cmd.extractLsb' 3 3 ∧
  (c.cmd.extractLsb' 3 3 = 0b000#3 → c.cmd.extractLsb' 0 2 = d.cmd.extractLsb' 0 2 ∧
    (v = .indexedIncremental → c.cmd.getLsbD 2 = d.cmd.getLsbD 2)) ∧
  (c.cmd.extractLsb' 3 3 = 0b101#3 → c.cmd.getLsbD 2 = d.cmd.getLsbD 2) ∧
  (c.cmd.extractLsb' 3 3 = 0b010#3 → c.dataIn = d.dataIn)

/-! ### Runs -/

/-- The edge on which the block accepts a command: `CMD_VALID` = 1 and no `RST` (30_encoding.md R70,
70_reset_and_hazards.md R252). -/
def PortInput.acceptsCommand (p : PortInput) : Bool := !p.rst && p.cmdValid

/-- The number of edges up to and including the one that accepts the last command: 0 if none does. -/
def edgesToLastCommand : List PortInput → Nat
  | [] => 0
  | p :: rest =>
    match edgesToLastCommand rest with
    | 0 => if p.acceptsCommand then 1 else 0
    | n + 1 => n + 2

/-- So many edges from a state, stopping at a fault or a refusal. -/
def run : Nat → State → Result
  | 0, s => .next s
  | n + 1, s =>
    match step s with
    | .next t => run n t
    | .fault f => .fault f
    | .refused r => .refused r

/-- The end of the run that starts in a state: what the host's last accepted command leaves. The edges after it, idle
or with `RST`, do not belong to the run (70_reset_and_hazards.md R266). A run without an accepted command ends where it
starts (log entry 11). -/
def State.endOfRun (s : State) : Result := run (edgesToLastCommand s.inputs) s

/-- The run that starts in a state ends successfully: its end is a state, with the latch clear
(70_reset_and_hazards.md R266, 60_exceptions.md R223). -/
def State.endsWell (s : State) : Prop := ∃ t, s.endOfRun = .next t ∧ t.fault = false

end Sys2Proof.Machine
end

