-- ==== Sys2Proof/Certificates/Slice0/Obligations.lean ====
section
/-! DEFINITION. The statements for the provers, from the numbered rules of spec/. -/

open Sys2Proof Sys2Proof.Machine

/-! ### Encoding -/

/-- Decoding what the encoder writes gives the instruction back, with every operand and every ignored bit
(30_encoding.md R71, R73, R75). -/
def Obligations.DecodeOfEncodeIsTheInstruction : Prop :=
  ∀ i : Instr, decode (encode i) = i

/-- Encoding what the decoder reads gives the word back, and the operand bus too where the command uses it
(30_encoding.md R71, R73, R77). -/
def Obligations.EncodeOfDecodeIsTheWord : Prop :=
  ∀ c : Command, (encode (decode c)).cmd = c.cmd ∧ ((decode c).op = .setCounter → encode (decode c) = c)

/-- 30_encoding.md R79: each word matches exactly one row of the opcode map, the row of the instruction it decodes to;
the words of no variant are those of `OP` = 110 and 111. -/
def Obligations.EveryWordIsExactlyOneCommand : Prop :=
  ∀ c : Command,
    (opcodeMap.filter fun r => r.matches c.cmd).map OpcodeRow.op = [(decode c).op] ∧
    ((∀ v, legal (decode c).op v = false) ↔
      c.cmd.extractLsb' 3 3 = 0b110#3 ∨ c.cmd.extractLsb' 3 3 = 0b111#3)

/-- 30_encoding.md R90, the encoding examples. -/
def Obligations.EncodingExamplesDecode : Prop :=
  ∀ c : Config, c.wf = true →
    (Asm.update false true).assemble c = some ⟨0x01#6, 0#128⟩ ∧ decode ⟨0x01#6, 0#128⟩ = .update false false true ∧
    (Asm.update true true).assemble c = some ⟨0x03#6, 0#128⟩ ∧ decode ⟨0x03#6, 0#128⟩ = .update false true true ∧
    (Asm.updateZ false true true).assemble c = some ⟨0x05#6, 0#128⟩ ∧
    decode ⟨0x05#6, 0#128⟩ = .update true false true ∧
    (Asm.updateZ true true true).assemble c = some ⟨0x07#6, 0#128⟩ ∧
    decode ⟨0x07#6, 0#128⟩ = .update true true true ∧
    Asm.reset.assemble c = some ⟨0x08#6, 0#128⟩ ∧ decode ⟨0x08#6, 0#128⟩ = .reset 0#3 ∧
    (Asm.setCounter 5).assemble c = some ⟨0x10#6, 5#128⟩ ∧ decode ⟨0x10#6, 5#128⟩ = .setCounter 0#3 5#128 ∧
    Asm.readCounter.assemble c = some ⟨0x18#6, 0#128⟩ ∧ decode ⟨0x18#6, 0#128⟩ = .readCounter 0#3 ∧
    Asm.readPpc.assemble c = some ⟨0x20#6, 0#128⟩ ∧ decode ⟨0x20#6, 0#128⟩ = .readPpc 0#3 ∧
    (Asm.indexUpdate true).assemble c = some ⟨0x2C#6, 0#128⟩ ∧ decode ⟨0x2C#6, 0#128⟩ = .indexUpdate true 0#2 ∧
    decode ⟨0x3F#6, 0#128⟩ = .reserved111 0b111#3

/-- 30_encoding.md R89: an assembler statement encodes as its command with the ignored bits 0; `SET_COUNTER v` carries v
as W bits, and is refused exactly when v lies outside the bounds; the other names are aliases. -/
def Obligations.AssemblerWritesItsCommand : Prop :=
  ∀ c : Config, c.wf = true →
    (∀ a b, (Asm.update a b).assemble c = some (encode (.update false a b))) ∧
    (∀ a b z, (Asm.updateZ a b z).assemble c = some (encode (.update z a b))) ∧
    Asm.reset.assemble c = some (encode (.reset 0#3)) ∧
    (∀ v, c.counterMin ≤ v → v ≤ c.counterMax →
      ∃ d, (Asm.setCounter v).assemble c = some (encode (.setCounter 0#3 d)) ∧ c.wires d = d ∧ c.counterValue d = v) ∧
    (∀ v, v < c.counterMin ∨ c.counterMax < v → (Asm.setCounter v).assemble c = none) ∧
    Asm.readCounter.assemble c = some (encode (.readCounter 0#3)) ∧
    Asm.readPpc.assemble c = some (encode (.readPpc 0#3)) ∧
    (∀ z, (Asm.indexUpdate z).assemble c = some (encode (.indexUpdate z 0#2))) ∧
    (∀ v, (Asm.setPosition v).assemble c = (Asm.setCounter v).assemble c) ∧
    Asm.position.assemble c = Asm.readCounter.assemble c ∧
    Asm.counter.assemble c = Asm.readCounter.assemble c

/-- 30_encoding.md R77: two words that differ in ignored bits only are executed alike. -/
def Obligations.IgnoredBitsHaveNoEffect : Prop :=
  ∀ (s : State) (c d : Command), sameCommand s.cfg.variant c d → exec (decode c) s = exec (decode d) s

/-! ### The port, reset and the edge -/

/-- A rising edge with `RST` = 0 and `CMD_VALID` = 1 executes the command on `CMD` and `DATA_IN`, whatever they hold
(30_encoding.md R70); the presented input is used up. -/
def Obligations.StepRunsTheDecodedCommand : Prop :=
  ∀ (s : State) (p : PortInput) (rest : List PortInput), s.built → s.inputs = p :: rest → p.rst = false →
    p.cmdValid = true → step s = exec (decode ⟨p.cmd, p.dataIn⟩) { s with inputs := rest }

/-- An edge with `RST` = 0 and `CMD_VALID` = 0 changes only `RESP_VALID` (30_encoding.md R70, 60_exceptions.md R236). A
host with nothing left to present leaves the pins so (the model's choice, log entry 5). -/
def Obligations.IdleEdgeChangesOnlyRespValid : Prop :=
  ∀ s : State, s.built →
    (∀ p rest, s.inputs = p :: rest → p.rst = false → p.cmdValid = false →
      step s = .next { s with respValid := false, inputs := rest }) ∧
    (s.inputs = [] → step s = .next { s with respValid := false })

/-- 70_reset_and_hazards.md R250 and R252: on an edge with `RST` = 1 every register the variant has takes its reset
value, whatever command stands on the pins, `FAULT` is cleared, and nothing is executed. That the fields of absent
registers, `STATE` and `LAST` in INDEX_ONLY among them, stay as they were is the model's choice (log entry 7). -/
def Obligations.RstLoadsTheResetValues : Prop :=
  ∀ (s : State) (p : PortInput) (rest : List PortInput), s.built → s.inputs = p :: rest → p.rst = true →
    ∃ t, step s = .next t ∧ t.cfg = s.cfg ∧ t.rom = s.rom ∧ t.inputs = rest ∧ t.fault = false ∧
      t.respValid = false ∧ t.respStatus = 0x0#4 ∧ t.respData = 0#128 ∧
      (if s.cfg.variant.hasDecoder then t.fst = .N0 ∧ t.last = 0b11#2 else t.fst = s.fst ∧ t.last = s.last) ∧
      (if s.cfg.variant.hasCounter then t.counter = 0#128 else t.counter = s.counter) ∧
      (if s.cfg.variant.hasIndex then t.zlast = false ∧ t.zprimed = false
        else t.zlast = s.zlast ∧ t.zprimed = s.zprimed)

/-- 10_state.md R33: the values after reset, in `State.reset` and, from every state whose registers are well formed,
after an edge with `RST` = 1; the configuration is unchanged. -/
def Obligations.ResetStateHoldsTheResetValues : Prop :=
  (State.reset.fst = .N0 ∧ State.reset.last = 0b11#2 ∧ State.reset.counter = 0#128 ∧ State.reset.zlast = false ∧
    State.reset.zprimed = false ∧ State.reset.fault = false ∧ State.reset.respValid = false ∧
    State.reset.respStatus = 0x0#4 ∧ State.reset.respData = 0#128) ∧
  ∀ (s : State) (p : PortInput) (rest : List PortInput), s.built → s.wf → s.inputs = p :: rest → p.rst = true →
    step s = .next
      { cfg := s.cfg, rom := s.rom, fst := .N0, last := 0b11#2, counter := 0#128, zlast := false, zprimed := false,
        fault := false, respValid := false, respStatus := 0x0#4, respData := 0#128, inputs := rest }

/-- 10_state.md R32: an accepted command leaves `RESP_VALID` = 1; an edge that accepts none leaves it 0, and without
`RST` the status and the data hold. -/
def Obligations.ResponseHoldsUntilTheNextCommand : Prop :=
  ∀ s t : State, step s = .next t →
    (s.pins.rst = false → s.pins.cmdValid = true → t.respValid = true) ∧
    (s.pins.rst = true ∨ s.pins.cmdValid = false → t.respValid = false) ∧
    (s.pins.rst = false → s.pins.cmdValid = false → t.respStatus = s.respStatus ∧ t.respData = s.respData)

/-- 30_encoding.md R83: the codes of `MODE`; a machine strapped with the code 3 is refused at every command and every
edge. -/
def Obligations.ModeThreeIsRefused : Prop :=
  Mode.code .full = 0#2 ∧ Mode.code .half = 1#2 ∧ Mode.code .quad = 2#2 ∧ Mode.code .code3 = 3#2 ∧
  ∀ (s : State) (i : Instr), s.cfg.mode = .code3 →
    exec i s = .refused .modeNotLegal ∧ step s = .refused .modeNotLegal

/-- The only stops: a machine is refused at every edge exactly when it cannot be built, and nothing faults. The spec
refuses `MODE` = 3 (30_encoding.md R83). Refusing a width outside 4 to 128 at every edge is the model's choice (log entry
1), and refusing a bound table that is not WF in every variant, in INDEX_ONLY too, is the model's inference (log entry
4). -/
def Obligations.OnlyUnbuildableMachinesStop : Prop :=
  ∀ s : State,
    (s.built ↔ s.cfg.mode ≠ .code3 ∧ 4 ≤ s.cfg.counterWidth ∧ s.cfg.counterWidth ≤ 128 ∧
      tableWF s.rom s.cfg.mode = true) ∧
    (s.built → (∃ t, step s = .next t) ∧ ∀ i, ∃ t, exec i s = .next t) ∧
    (¬ s.built → (∃ r, step s = .refused r) ∧ ∀ i, ∃ r, exec i s = .refused r)

/-! ### The preamble and the failures -/

/-- 60_exceptions.md R223: with the latch set every command, legal or not, answers 0xF and changes nothing else, only an
edge with `RST` = 1 clears the latch, and a run whose end state has it set, or that starts with it set and meets no `RST`,
does not end well. -/
def Obligations.LatchedFaultStopsTheBlock : Prop :=
  (∀ (i : Instr) (s : State), s.built → s.fault = true →
    exec i s = .next { s with respValid := true, respStatus := 0xF#4, respData := 0#128 }) ∧
  (∀ s t : State, step s = .next t → s.fault = true → (t.fault = false ↔ s.pins.rst = true)) ∧
  (∀ s t : State, s.endOfRun = .next t → t.fault = true → ¬ s.endsWell) ∧
  (∀ s : State, s.fault = true → (∀ p ∈ s.inputs, p.rst = false) → ¬ s.endsWell)

/-- 60_exceptions.md R224: a reserved command, or one not legal in the variant, answers 0x8 with data 0 and changes
nothing else, so the command after it is executed as if it had not been there. -/
def Obligations.IllegalCommandAnswersOnly : Prop :=
  ∀ (i : Instr) (s : State), s.built → s.fault = false → legal i.op s.cfg.variant = false →
    ∃ t, exec i s = .next t ∧ t = { s with respValid := true, respStatus := 0x8#4, respData := 0#128 } ∧
      ∀ j, exec j t = exec j s

/-- The reserved opcodes 110 and 111 answer 0x8 in every variant, whatever their other bits (60_exceptions.md R224,
30_encoding.md R78). -/
def Obligations.ReservedOpcodesAnswerIllegal : Prop :=
  ∀ (u : BitVec 3) (s : State), s.built → s.fault = false →
    exec (.reserved110 u) s = .next { s with respValid := true, respStatus := 0x8#4, respData := 0#128 } ∧
    exec (.reserved111 u) s = .next { s with respValid := true, respStatus := 0x8#4, respData := 0#128 }

/-- 30_encoding.md R78, the table of which command is legal in which variant. -/
def Obligations.LegalityTable : Prop :=
  ∀ (op : Op) (v : Variant), legal op v = true ↔ (op, v) ∈
    [(Op.update, Variant.quadrature), (.update, .incremental), (.update, .indexedIncremental),
     (.reset, .quadrature), (.reset, .incremental), (.reset, .indexedIncremental), (.reset, .indexOnly),
     (.setCounter, .incremental), (.setCounter, .indexedIncremental),
     (.readCounter, .incremental), (.readCounter, .indexedIncremental),
     (.readPpc, .quadrature), (.readPpc, .incremental), (.readPpc, .indexedIncremental),
     (.indexUpdate, .indexOnly)]

/-- 60_exceptions.md R222: an update that reads an ErrorSentinel cell commits nothing but the latch and answers 0xF, in
every variant that decodes and whatever the validator says. -/
def Obligations.SentinelCellLatchesTheFault : Prop :=
  ∀ (z a b : Bool) (s : State) (n : FstState), s.accepts .update →
    transition s.rom s.cfg.mode s.fst (sample a b) = some ⟨n, .errorSentinel⟩ →
    exec (.update z a b) s =
      .next { s with fault := true, respValid := true, respStatus := 0xF#4, respData := 0#128 }

/-- 60_exceptions.md R226, the priority of the statuses: latched fault, illegal command, new fault, diagonal error,
movement, OK. -/
def Obligations.StatusFollowsThePriority : Prop :=
  ∀ (i : Instr) (s t : State), exec i s = .next t →
    t.respStatus =
      (if s.fault = true then 0xF#4
       else if legal i.op s.cfg.variant = false then 0x8#4
       else match i with
         | .update _ a b =>
           if hasTransition s.rom s.cfg.mode s.fst (sample a b) (fun c => c.out == .errorSentinel) then 0xF#4
           else if hamming s.last (sample a b) = 2 then 0x4#4 ||| s.last.setWidth 4
           else if hasTransition s.rom s.cfg.mode s.fst (sample a b) (fun c => c.out == .forward) then 0x1#4
           else if hasTransition s.rom s.cfg.mode s.fst (sample a b) (fun c => c.out == .reverse) then 0x2#4
           else 0x0#4
         | _ => 0x0#4)

/-! ### The commands -/

/-- 42_decoder.md R165 (QUADRATURE): an update whose cell is no sentinel writes `STATE`, `LAST` and the response. -/
def Obligations.UpdateInQuadrature : Prop :=
  ∀ (z a b : Bool) (s : State) (n : FstState) (o : Output), s.accepts .update → s.cfg.variant = .quadrature →
    transition s.rom s.cfg.mode s.fst (sample a b) = some ⟨n, o⟩ → o ≠ .errorSentinel →
    exec (.update z a b) s = .next
      { s with fst := n, last := sample a b, respValid := true, respData := 0#128,
               respStatus := tableStatus s.last (sample a b) o }

/-- 42_decoder.md R152 (INCREMENTAL): the same, and a movement without an error moves the counter by one within its
bounds. -/
def Obligations.UpdateInIncremental : Prop :=
  ∀ (z a b : Bool) (s : State) (n : FstState) (o : Output), s.accepts .update → s.cfg.variant = .incremental →
    transition s.rom s.cfg.mode s.fst (sample a b) = some ⟨n, o⟩ → o ≠ .errorSentinel →
    exec (.update z a b) s = .next
      { s with fst := n, last := sample a b, respValid := true, respData := 0#128,
               respStatus := tableStatus s.last (sample a b) o,
               counter := tableCount s.cfg s.counter s.last (sample a b) o }

/-- 43_index.md R196 (INDEXED_INCREMENTAL): the same, the index is evaluated whatever the result is, and an edge leaves
the counter at 0. -/
def Obligations.UpdateInIndexedIncremental : Prop :=
  ∀ (z a b : Bool) (s : State) (n : FstState) (o : Output), s.accepts .update →
    s.cfg.variant = .indexedIncremental →
    transition s.rom s.cfg.mode s.fst (sample a b) = some ⟨n, o⟩ → o ≠ .errorSentinel →
    exec (.update z a b) s = .next
      { s with fst := n, last := sample a b, zlast := z, zprimed := true, respValid := true, respData := 0#128,
               respStatus := tableStatus s.last (sample a b) o,
               counter :=
                 if z = true ∧ s.zlast = false ∧ (s.zprimed = true ∨ s.cfg.indexFirstEdge = .report) then 0#128
                 else tableCount s.cfg s.counter s.last (sample a b) o }

/-- From a sound state an update of a decoding variant completes and moves `STATE` to its cell's next state; the latch
stays clear (40_transducer.md R113, 42_decoder.md R165). -/
def Obligations.UpdateCompletesFromSoundStates : Prop :=
  ∀ (z a b : Bool) (s : State), s.sound → s.cfg.variant.hasDecoder = true →
    ∃ t c, exec (.update z a b) s = .next t ∧ transition s.rom s.cfg.mode s.fst (sample a b) = some c ∧
      t.fst = c.next ∧ t.last = sample a b ∧ t.fault = false ∧ t.respValid = true ∧
      t.respStatus = tableStatus s.last (sample a b) c.out ∧ t.respStatus ≠ 0xF#4

/-- 42_decoder.md R156 with 43_index.md R194 and R198: `RESET` gives every register the variant has its reset value
and answers OK; it is idempotent. -/
def Obligations.ResetCommandRestoresTheVariantsRegisters : Prop :=
  ∀ (u : BitVec 3) (s : State), s.accepts .reset →
    ∃ t, exec (.reset u) s = .next t ∧ exec (.reset u) t = .next t ∧
      t = { s with
        fst := if s.cfg.variant.hasDecoder then .N0 else s.fst
        last := if s.cfg.variant.hasDecoder then 0b11#2 else s.last
        counter := if s.cfg.variant.hasCounter then 0#128 else s.counter
        zlast := if s.cfg.variant.hasIndex then false else s.zlast
        zprimed := if s.cfg.variant.hasIndex then false else s.zprimed
        respValid := true, respStatus := 0x0#4, respData := 0#128 }

/-- 42_decoder.md R160: `SET_COUNTER` writes the W bits of `DATA_IN` to the counter and nothing else but the response;
every W-bit pattern is stored as it is. -/
def Obligations.SetCounterStoresTheOperand : Prop :=
  ∀ (u : BitVec 3) (d : Word) (s : State), s.accepts .setCounter →
    exec (.setCounter u d) s = .next
      { s with counter := s.cfg.wires d, respValid := true, respStatus := 0x0#4, respData := 0#128 } ∧
    (d.toNat < 2 ^ s.cfg.counterWidth → s.cfg.wires d = d)

/-- 42_decoder.md R162: `READ_COUNTER` answers the counter's W bits and changes nothing but the response. -/
def Obligations.ReadCounterAnswersTheCounter : Prop :=
  ∀ (u : BitVec 3) (s : State), s.accepts .readCounter →
    exec (.readCounter u) s = .next
      { s with respValid := true, respStatus := 0x0#4, respData := s.cfg.wires s.counter }

/-- 42_decoder.md R164 with 30_encoding.md R85: `READ_PPC` answers 1, 2 or 4 by the step mode and changes nothing but
the response. -/
def Obligations.ReadPpcAnswersThePulsesPerCycle : Prop :=
  ∀ (u : BitVec 3) (s : State), s.accepts .readPpc →
    exec (.readPpc u) s = .next
      { s with
        respValid := true
        respStatus := 0x0#4
        respData := if s.cfg.mode = .full then 1#128 else if s.cfg.mode = .half then 2#128 else 4#128 }

/-- 43_index.md R191 and R192: `INDEX_UPDATE` answers the rising edge, suppressed on the first evaluation unless
`INDEX_FIRST_EDGE` = REPORT, and writes `ZLAST` and `ZPRIMED`. -/
def Obligations.IndexUpdateAnswersTheEdge : Prop :=
  ∀ (z : Bool) (u : BitVec 2) (s : State), s.accepts .indexUpdate →
    exec (.indexUpdate z u) s = .next
      { s with
        zlast := z
        zprimed := true
        respValid := true
        respStatus := 0x0#4
        respData :=
          if z = true ∧ s.zlast = false ∧ (s.zprimed = true ∨ s.cfg.indexFirstEdge = .report) then 1#128
          else 0#128 }

/-- 43_index.md R193: after an evaluation with z = 0, an evaluation with z = 1 reports an edge and every further one with
z = 1 reports none, however many follow, under both values of `INDEX_FIRST_EDGE`. -/
def Obligations.IndexEdgeIsReportedOnce : Prop :=
  ∀ (u v : BitVec 2) (us : List (BitVec 2)) (s : State), s.accepts .indexUpdate →
    dataOf s (.indexUpdate false u :: .indexUpdate true v :: us.map fun w => .indexUpdate true w) =
      some (0#128 :: 1#128 :: us.map fun _ => 0#128)

/-! ### Frames -/

/-- No command and no edge writes the ROM or the configuration (20_memory.md R51, 10_state.md R29), and an edge uses up
exactly one input. -/
def Obligations.RomAndConfigurationNeverChange : Prop :=
  (∀ (i : Instr) (s t : State), exec i s = .next t →
    t.rom = s.rom ∧ t.cfg = s.cfg ∧ t.inputs = s.inputs ∧ ∀ a, romRead t.rom a = romRead s.rom a) ∧
  (∀ s t : State, step s = .next t →
    t.rom = s.rom ∧ t.cfg = s.cfg ∧ t.inputs = s.inputs.tail ∧ ∀ a, romRead t.rom a = romRead s.rom a)

/-- Frame of `READ_COUNTER`, `READ_PPC` and the reserved opcodes: they change only the response registers (20_memory.md
R57, 60_exceptions.md R224). -/
def Obligations.ReadsChangeOnlyTheResponse : Prop :=
  ∀ (i : Instr) (s t : State), i.op ∈ [Op.readCounter, .readPpc, .reserved110, .reserved111] → exec i s = .next t →
    t.fst = s.fst ∧ t.last = s.last ∧ t.counter = s.counter ∧ t.zlast = s.zlast ∧ t.zprimed = s.zprimed ∧
    t.fault = s.fault ∧ t.cfg = s.cfg ∧ t.inputs = s.inputs ∧ ∀ a, romRead t.rom a = romRead s.rom a

/-- Frame of `SET_COUNTER`, `RESET` and `INDEX_UPDATE`, which write no ROM cell and leave the latch: `SET_COUNTER` leaves
the phase and index state (42_decoder.md R160, 43_index.md R201), `INDEX_UPDATE` all but the index state (43_index.md
R192), `RESET` the registers the variant lacks. -/
def Obligations.WritesStayInTheirRegisters : Prop :=
  ∀ (i : Instr) (s t : State), exec i s = .next t →
    (i.op = .setCounter → t.fst = s.fst ∧ t.last = s.last ∧ t.zlast = s.zlast ∧ t.zprimed = s.zprimed) ∧
    (i.op = .indexUpdate → t.fst = s.fst ∧ t.last = s.last ∧ t.counter = s.counter) ∧
    (i.op = .reset →
      (s.cfg.variant.hasDecoder = false → t.fst = s.fst ∧ t.last = s.last) ∧
      (s.cfg.variant.hasCounter = false → t.counter = s.counter) ∧
      (s.cfg.variant.hasIndex = false → t.zlast = s.zlast ∧ t.zprimed = s.zprimed)) ∧
    (i.op ∈ [Op.setCounter, .indexUpdate, .reset] →
      t.fault = s.fault ∧ t.cfg = s.cfg ∧ t.inputs = s.inputs ∧ ∀ a, romRead t.rom a = romRead s.rom a)

/-- Frame of `UPDATE`: what it leaves in each variant and for each status (42_decoder.md R152, R165, 43_index.md R196,
60_exceptions.md R227). -/
def Obligations.UpdateFrame : Prop :=
  ∀ (z a b : Bool) (s t : State), exec (.update z a b) s = .next t →
    t.cfg = s.cfg ∧ t.inputs = s.inputs ∧ (∀ x, romRead t.rom x = romRead s.rom x) ∧
    (s.cfg.variant ≠ .indexedIncremental → t.zlast = s.zlast ∧ t.zprimed = s.zprimed) ∧
    (s.cfg.variant.hasCounter = false → t.counter = s.counter) ∧
    (t.respStatus ≠ 0x1#4 → t.respStatus ≠ 0x2#4 → (s.cfg.variant = .indexedIncremental → indexEdge s z = false) →
      t.counter = s.counter) ∧
    (t.respStatus = 0x8#4 ∨ t.respStatus = 0xF#4 →
      t.fst = s.fst ∧ t.last = s.last ∧ t.counter = s.counter ∧ t.zlast = s.zlast ∧ t.zprimed = s.zprimed) ∧
    (t.respStatus ≠ 0xF#4 → t.fault = s.fault)

/-- 10_state.md R20: no command of a variant writes a register the variant lacks, and none reads one: with another value
there the outcome is the same, and the value stays. -/
def Obligations.AbsentRegistersAreNeitherReadNorWritten : Prop :=
  ∀ (i : Instr) (s t : State) (f : FstState) (l : Sample) (c : Word) (z p : Bool), exec i s = .next t →
    (s.cfg.variant.hasDecoder = false →
      t.fst = s.fst ∧ t.last = s.last ∧
      exec i { s with fst := f, last := l } = .next { t with fst := f, last := l }) ∧
    (s.cfg.variant.hasCounter = false →
      t.counter = s.counter ∧ exec i { s with counter := c } = .next { t with counter := c }) ∧
    (s.cfg.variant.hasIndex = false →
      t.zlast = s.zlast ∧ t.zprimed = s.zprimed ∧
      exec i { s with zlast := z, zprimed := p } = .next { t with zlast := z, zprimed := p })

/-- No command reads the response registers: whatever they hold, the outcome is the same (10_state.md R28). -/
def Obligations.ResponseRegistersAreNeverRead : Prop :=
  ∀ (i : Instr) (s : State) (v : Bool) (st : BitVec 4) (d : Word),
    exec i { s with respValid := v, respStatus := st, respData := d } = exec i s

/-! ### The tables and the transducer -/

/-- 40_transducer.md R105, R106 and R107: the cells of the three tables, state by state in code order and input by input
in the order 00, 01, 10, 11. Of a sentinel cell only the output is stated (93_implementation_defined.md row 12). -/
def Obligations.SpecTableCells : Prop :=
  let n (st : FstState) := some (some st, Output.neutral)
  let f (st : FstState) := some (some st, Output.forward)
  let r (st : FstState) := some (some st, Output.reverse)
  let x : Option (Option FstState × Output) := some (none, .errorSentinel)
  let cell (m : Mode) (st : FstState) (i : Sample) :=
    (transition [] m st i).map fun t => (if t.out = .errorSentinel then none else some t.next, t.out)
  let table (m : Mode) := FstState.all.map fun st => allSamples.map (cell m st)
  table .full =
    [[n .N2, n .F1, n .R1, n .N0],
     [n .F2, n .F1, n .R1, n .N0],
     [n .F2, n .F1, n .F3, n .N0],
     [n .F2, n .F1, n .F3, f .N0],
     [n .R2, n .F1, n .R1, n .N0],
     [n .R2, n .R3, n .R1, n .N0],
     [n .R2, n .R3, n .R1, r .N0],
     [n .N2, n .R3, n .F3, n .N0]] ∧
  table .half =
    [[n .N2, n .F1, n .R1, n .N0],
     [f .N2, n .F1, n .R1, n .N0],
     [x, x, x, x],
     [n .N2, n .F1, n .F3, f .N0],
     [r .N2, n .F1, n .R1, n .N0],
     [x, x, x, x],
     [n .N2, n .R3, n .R1, r .N0],
     [n .N2, n .R3, n .F3, n .N0]] ∧
  table .quad =
    [[n .N2, f .F1, r .R1, n .N0],
     [f .N2, n .F1, n .R1, r .N0],
     [x, x, x, x],
     [x, x, x, x],
     [r .N2, n .F1, n .R1, f .N0],
     [x, x, x, x],
     [x, x, x, x],
     [n .N2, r .F1, f .R1, n .N0]]

/-- The three tables are WF (40_transducer.md R102), and their reachable sets are those of R113. -/
def Obligations.SpecTablesAreWellFormed : Prop :=
  (∀ mode, mode ≠ .code3 → tableWF [] mode = true) ∧
  reachable [] .full = [.N0, .F1, .F2, .F3, .R1, .R2, .R3, .N2] ∧
  reachable [] .half = [.N0, .F1, .F3, .R1, .R3, .N2] ∧
  reachable [] .quad = [.N0, .F1, .R1, .N2]

/-- The computed reachable set holds exactly the states the transducer can enter from `N0`, for every ROM and mode
(00_scope.md R18). -/
def Obligations.ReachableStatesAreThoseEntered : Prop :=
  ∀ (m : Memory) (mode : Mode) (st : FstState),
    st ∈ reachable m mode ↔ ∃ samples, stateAfter m mode .N0 samples = some st

/-- 40_transducer.md R116: the outputs of the clean cycles from `N0` in the three tables, and that each ends in `N0`. -/
def Obligations.CleanCyclesEmitTheirPulses : Prop :=
  outputsFrom [] .full .N0 [0b01#2, 0b00#2, 0b10#2, 0b11#2] = [.neutral, .neutral, .neutral, .forward] ∧
  outputsFrom [] .half .N0 [0b01#2, 0b00#2, 0b10#2, 0b11#2] = [.neutral, .forward, .neutral, .forward] ∧
  outputsFrom [] .quad .N0 [0b01#2, 0b00#2, 0b10#2, 0b11#2] = [.forward, .forward, .forward, .forward] ∧
  outputsFrom [] .full .N0 [0b10#2, 0b00#2, 0b01#2, 0b11#2] = [.neutral, .neutral, .neutral, .reverse] ∧
  outputsFrom [] .half .N0 [0b10#2, 0b00#2, 0b01#2, 0b11#2] = [.neutral, .reverse, .neutral, .reverse] ∧
  outputsFrom [] .quad .N0 [0b10#2, 0b00#2, 0b01#2, 0b11#2] = [.reverse, .reverse, .reverse, .reverse] ∧
  ∀ mode, mode ≠ .code3 → stateAfter [] mode .N0 [0b01#2, 0b00#2, 0b10#2, 0b11#2] = some .N0 ∧
    stateAfter [] mode .N0 [0b10#2, 0b00#2, 0b01#2, 0b11#2] = some .N0

/-- 41_validator.md R131 with R130 and R134: the verdict on every pair, which is a function of the two samples alone. -/
def Obligations.ValidatorVerdicts : Prop :=
  ∀ last i : Sample,
    validate last i =
      (if last = 0b00#2 ∧ i = 0b11#2 then some .e00to11
       else if last = 0b01#2 ∧ i = 0b10#2 then some .e01to10
       else if last = 0b10#2 ∧ i = 0b01#2 then some .e10to01
       else if last = 0b11#2 ∧ i = 0b00#2 then some .e11to00
       else none) ∧
    (Status.code (.err .e00to11) = 0x4#4 ∧ Status.code (.err .e01to10) = 0x5#4 ∧
      Status.code (.err .e10to01) = 0x6#4 ∧ Status.code (.err .e11to00) = 0x7#4)

/-- 40_transducer.md R115 for every WF table: in a sound state whose `LAST` is its phase, repeating the last sample
answers OK and changes neither `STATE`, `LAST` nor, without an index edge, `COUNTER`. -/
def Obligations.StutterChangesNothing : Prop :=
  ∀ (z a b : Bool) (s : State), s.sound → s.phaseLocked → s.cfg.variant.hasDecoder = true → sample a b = s.last →
    ∃ t, exec (.update z a b) s = .next t ∧ t.fst = s.fst ∧ t.last = s.last ∧ t.respStatus = 0x0#4 ∧
      ((s.cfg.variant = .indexedIncremental → indexEdge s z = false) → t.counter = s.counter)

/-- 60_exceptions.md R221 with 40_transducer.md R108 and R118, in the spec's tables: a diagonal sample answers
`0x4 | from`, moves `STATE` to SYNC(IN) and `LAST` to IN, moves no counter, and the next sample is no error unless it is
itself diagonal. -/
def Obligations.DiagonalJumpIsReportedAndRecovered : Prop :=
  ∀ (z a b z' a' b' : Bool) (s : State), s.sound → s.specTables → s.phaseLocked →
    s.cfg.variant.hasDecoder = true → sample a b = diagonal s.last →
    ∃ t, exec (.update z a b) s = .next t ∧ t.respStatus = 0x4#4 ||| s.last.setWidth 4 ∧
      t.fst = sync (sample a b) ∧ t.last = sample a b ∧ t.fault = false ∧
      t.counter = (if s.cfg.variant = .indexedIncremental ∧ indexEdge s z = true then 0#128 else s.counter) ∧
      (sample a' b' ≠ diagonal (sample a b) →
        ∃ u, exec (.update z' a' b') t = .next u ∧
          (u.respStatus = 0x0#4 ∨ u.respStatus = 0x1#4 ∨ u.respStatus = 0x2#4))

/-- 40_transducer.md R101 for QUAD in the spec's tables: every quarter forward answers 0x1, every quarter backward 0x2,
from every sound state; so three quarters forward, seen as one sample, answer 0x2 (R119). -/
def Obligations.QuadReportsEveryQuarter : Prop :=
  ∀ (z a b : Bool) (s : State), s.sound → s.specTables → s.phaseLocked → s.cfg.variant.hasDecoder = true →
    s.cfg.mode = .quad →
    ∃ t, exec (.update z a b) s = .next t ∧
      (sample a b = fwdPhase s.last → t.respStatus = 0x1#4) ∧
      (sample a b = revPhase s.last → t.respStatus = 0x2#4) ∧
      (sample a b = fwdPhase (fwdPhase (fwdPhase s.last)) → t.respStatus = 0x2#4) ∧
      (sample a b = fwdPhase (fwdPhase s.last) → t.respStatus = 0x4#4 ||| s.last.setWidth 4) ∧
      (sample a b = s.last → t.respStatus = 0x0#4)

/-- 70_reset_and_hazards.md R255 in the spec's tables: the answer to the first sample after reset. -/
def Obligations.FirstSampleAfterReset : Prop :=
  ∀ (cfg : Config) (inputs : List PortInput) (z a b : Bool), cfg.wf = true → cfg.variant.hasDecoder = true →
    ∃ t, exec (.update z a b) (State.afterRst cfg [] inputs) = .next t ∧
      t.respStatus =
        (if sample a b = 0b00#2 then 0x7#4
         else if sample a b = 0b01#2 then (if cfg.mode = .quad then 0x1#4 else 0x0#4)
         else if sample a b = 0b10#2 then (if cfg.mode = .quad then 0x2#4 else 0x0#4)
         else 0x0#4)

/-! ### The counter and the index -/

/-- 42_decoder.md R153: `SAT_ADD` is the exact sum clamped to the bounds, for every width and both signednesses; a
pattern's number lies within the bounds of 00_scope.md R11. -/
def Obligations.SaturatingAddClampsTheExactSum : Prop :=
  ∀ (c : Config) (x : Word), c.widthLegal = true →
    c.counterMin ≤ c.counterValue x ∧ c.counterValue x ≤ c.counterMax ∧
    c.counterValue (satAdd c x .forward) = min (c.counterValue x + 1) c.counterMax ∧
    c.counterValue (satAdd c x .reverse) = max (c.counterValue x - 1) c.counterMin ∧
    c.wires (satAdd c x .forward) = satAdd c x .forward ∧ c.wires (satAdd c x .reverse) = satAdd c x .reverse

/-- 42_decoder.md R161: `SET_COUNTER p` followed by an update whose result is a movement leaves `COUNTER` at p moved by
one within the bounds, whatever `STATE` and `LAST` are (INCREMENTAL, and INDEXED_INCREMENTAL without an index edge). -/
def Obligations.SetCounterThenMovement : Prop :=
  ∀ (u : BitVec 3) (d : Word) (z a b : Bool) (s : State), s.accepts .setCounter →
    ∃ s1, exec (.setCounter u d) s = .next s1 ∧
      ∀ t, exec (.update z a b) s1 = .next t → (s.cfg.variant = .indexedIncremental → indexEdge s z = false) →
        (t.respStatus = 0x1#4 → s.cfg.counterValue t.counter = min (s.cfg.counterValue d + 1) s.cfg.counterMax) ∧
        (t.respStatus = 0x2#4 → s.cfg.counterValue t.counter = max (s.cfg.counterValue d - 1) s.cfg.counterMin)

/-- 43_index.md R197 and R199: in INDEXED_INCREMENTAL an index edge leaves the counter at exactly 0, whatever the
quadrature result of the same update is, and the index state is written. -/
def Obligations.IndexEdgeAlwaysWins : Prop :=
  ∀ (z a b : Bool) (s : State), s.sound → s.cfg.variant = .indexedIncremental →
    ∃ t, exec (.update z a b) s = .next t ∧ t.zlast = z ∧ t.zprimed = true ∧
      (z = true → s.zlast = false → s.zprimed = true ∨ s.cfg.indexFirstEdge = .report → t.counter = 0#128)

/-- 43_index.md R200: the response of an indexed update, and the phase it leaves, do not depend on z. -/
def Obligations.IndexPulseIsSilent : Prop :=
  ∀ (z w a b : Bool) (s t : State), exec (.update z a b) s = .next t →
    ∃ u, exec (.update w a b) s = .next u ∧ u.respValid = t.respValid ∧ u.respStatus = t.respStatus ∧
      u.respData = t.respData ∧ u.fst = t.fst ∧ u.last = t.last ∧ u.fault = t.fault

/-- 42_decoder.md R166 for every WF table: in INCREMENTAL, from `N0` with `LAST` = 11, one clean forward cycle adds the
pulses per cycle to the counter and one clean reverse cycle takes them away, when neither saturates. -/
def Obligations.CleanCycleCountsThePulsesPerCycle : Prop :=
  ∀ (z : Bool) (s : State) (n : Nat), s.sound → s.cfg.variant = .incremental → s.fst = .N0 → s.last = 0b11#2 →
    s.cfg.mode.ppc = some n →
    (s.cfg.counterValue s.counter + n ≤ s.cfg.counterMax →
      ∃ s1 s2 s3 s4, exec (.update z false true) s = .next s1 ∧ exec (.update z false false) s1 = .next s2 ∧
        exec (.update z true false) s2 = .next s3 ∧ exec (.update z true true) s3 = .next s4 ∧
        s4.cfg.counterValue s4.counter = s.cfg.counterValue s.counter + n) ∧
    (s.cfg.counterMin ≤ s.cfg.counterValue s.counter - n →
      ∃ s1 s2 s3 s4, exec (.update z true false) s = .next s1 ∧ exec (.update z false false) s1 = .next s2 ∧
        exec (.update z false true) s2 = .next s3 ∧ exec (.update z true true) s3 = .next s4 ∧
        s4.cfg.counterValue s4.counter = s.cfg.counterValue s.counter - n)

/-- 70_reset_and_hazards.md R253: `RESET` differs from `RST` in that it does not clear `FAULT` and answers with a
response; with `FAULT` = 0 every later command finds the same block. -/
def Obligations.ResetCommandMatchesRst : Prop :=
  ∀ (u : BitVec 3) (s r : State) (p : PortInput), s.built → p.rst = true → clockEdge p s = .next r →
    (s.fault = true → ∃ t, exec (.reset u) s = .next t ∧ t.fault = true) ∧
    (s.fault = false →
      ∃ t, exec (.reset u) s = .next t ∧ t.respValid = true ∧ t.respStatus = 0x0#4 ∧ t.respData = 0#128 ∧
        t = { r with respValid := true } ∧ ∀ i, exec i t = exec i r)

/-! ### Invariants -/

/-- Every step from a sound state answers a next state, and that state is sound: with any WF table, any legal
configuration and any inputs, `STATE` stays reachable and the latch stays clear (40_transducer.md R113). -/
def Obligations.SoundStatesRunForever : Prop :=
  ∀ s : State, s.sound → ∃ t, step s = .next t ∧ t.sound

/-- Every step keeps the registers well formed: patterns on their W wires, a produced status (30_encoding.md R86), 0xF
exactly while the latch is set (60_exceptions.md R222, R223), `ZLAST` clear until primed (10_state.md R36), and, by the
model's choice of log entry 7, reset values in the fields of registers the variant lacks. -/
def Obligations.RegistersStayWellFormed : Prop :=
  ∀ s t : State, s.built → s.wf → step s = .next t → t.wf

/-- In the spec's tables every step from a sound state with `LAST = PHASE(STATE)` keeps that equation (40_transducer.md
R114). -/
def Obligations.LastIsThePhaseOfState : Prop :=
  ∀ s t : State, s.sound → s.specTables → s.phaseLocked → step s = .next t →
    t.sound ∧ t.specTables ∧ t.phaseLocked

/-- Every state just after reset meets the three invariants, whatever legal configuration it has, and so does
`State.reset`, whose `MODE` and empty list of inputs are the model's choice (log entries 3 and 5). -/
def Obligations.ResetMeetsTheInvariants : Prop :=
  (State.reset.sound ∧ State.reset.wf ∧ State.reset.specTables ∧ State.reset.phaseLocked) ∧
  ∀ (cfg : Config) (rom : Memory) (inputs : List PortInput), cfg.wf = true → tableWF rom cfg.mode = true →
    Memory.wf rom = true →
    (State.afterRst cfg rom inputs).sound ∧ (State.afterRst cfg rom inputs).wf ∧
      (State.afterRst cfg rom inputs).phaseLocked

/-! ### The end of a run -/

/-- 70_reset_and_hazards.md R266: the end of a run is the state that the host's last accepted command leaves, and it is a
successful end exactly when the latch is clear. That a run without an accepted command ends where it starts is the
model's inference (log entry 11). -/
def Obligations.RunEndsAfterTheLastCommand : Prop :=
  (∀ (s : State) (before rest : List PortInput) (p : PortInput), s.built → s.inputs = before ++ p :: rest →
    p.rst = false → p.cmdValid = true → (∀ q ∈ rest, q.rst = true ∨ q.cmdValid = false) →
    ∃ u t, run before.length s = .next u ∧ exec (decode ⟨p.cmd, p.dataIn⟩) { u with inputs := rest } = .next t ∧
      s.endOfRun = .next t ∧ t.respValid = true ∧ (s.endsWell ↔ t.fault = false)) ∧
  (∀ s : State, (∀ q ∈ s.inputs, q.rst = true ∨ q.cmdValid = false) → s.endOfRun = .next s)

/-- What the pins hold after the last accepted command, idle edges or `RST`, does not move the end of the run: appending
such edges leaves the end state, but that they are still to come (70_reset_and_hazards.md R266). -/
def Obligations.LaterEdgesDoNotMoveTheEnd : Prop :=
  ∀ (s t : State) (later : List PortInput), (∀ q ∈ later, q.rst = true ∨ q.cmdValid = false) →
    s.endOfRun = .next t →
    { s with inputs := s.inputs ++ later }.endOfRun = .next { t with inputs := t.inputs ++ later } ∧
      (s.endsWell ↔ { s with inputs := s.inputs ++ later }.endsWell)

/-- Every run from a sound state, whatever the host presents, has an end, which is sound, so it ends well; runs start just
after reset (70_reset_and_hazards.md R251, R266, 40_transducer.md R113). -/
def Obligations.SoundRunsEndWell : Prop :=
  (∀ s : State, s.sound → s.endsWell ∧ ∃ t, s.endOfRun = .next t ∧ t.sound) ∧
  ∀ (cfg : Config) (rom : Memory) (inputs : List PortInput), cfg.wf = true → tableWF rom cfg.mode = true →
    (State.afterRst cfg rom inputs).endsWell
end

