-- ==== Sys2Proof/Laws/State.lean ====
section
/-! SUPPORT. One lemma per field per update of the state, so that no proof unfolds a record update, and that no update
but the port's own touches what a machine is built from. -/

namespace Sys2Proof.Machine

section
variable (s : State)

/-! `State.respond` -/

@[simp] theorem State.respond_cfg (st : Status) (d : Word) : (s.respond st d).cfg = s.cfg := rfl
@[simp] theorem State.respond_rom (st : Status) (d : Word) : (s.respond st d).rom = s.rom := rfl
@[simp] theorem State.respond_fst (st : Status) (d : Word) : (s.respond st d).fst = s.fst := rfl
@[simp] theorem State.respond_last (st : Status) (d : Word) : (s.respond st d).last = s.last := rfl
@[simp] theorem State.respond_counter (st : Status) (d : Word) : (s.respond st d).counter = s.counter := rfl
@[simp] theorem State.respond_zlast (st : Status) (d : Word) : (s.respond st d).zlast = s.zlast := rfl
@[simp] theorem State.respond_zprimed (st : Status) (d : Word) : (s.respond st d).zprimed = s.zprimed := rfl
@[simp] theorem State.respond_fault (st : Status) (d : Word) : (s.respond st d).fault = s.fault := rfl
@[simp] theorem State.respond_respValid (st : Status) (d : Word) : (s.respond st d).respValid = true := rfl
@[simp] theorem State.respond_respStatus (st : Status) (d : Word) : (s.respond st d).respStatus = st.code := rfl
@[simp] theorem State.respond_respData (st : Status) (d : Word) : (s.respond st d).respData = d := rfl
@[simp] theorem State.respond_inputs (st : Status) (d : Word) : (s.respond st d).inputs = s.inputs := rfl

/-! `State.setPhase` -/

@[simp] theorem State.setPhase_cfg (f : FstState) (l : Sample) : (s.setPhase f l).cfg = s.cfg := rfl
@[simp] theorem State.setPhase_rom (f : FstState) (l : Sample) : (s.setPhase f l).rom = s.rom := rfl
@[simp] theorem State.setPhase_fst (f : FstState) (l : Sample) : (s.setPhase f l).fst = f := rfl
@[simp] theorem State.setPhase_last (f : FstState) (l : Sample) : (s.setPhase f l).last = l := rfl
@[simp] theorem State.setPhase_counter (f : FstState) (l : Sample) : (s.setPhase f l).counter = s.counter := rfl
@[simp] theorem State.setPhase_zlast (f : FstState) (l : Sample) : (s.setPhase f l).zlast = s.zlast := rfl
@[simp] theorem State.setPhase_zprimed (f : FstState) (l : Sample) : (s.setPhase f l).zprimed = s.zprimed := rfl
@[simp] theorem State.setPhase_fault (f : FstState) (l : Sample) : (s.setPhase f l).fault = s.fault := rfl
@[simp] theorem State.setPhase_respValid (f : FstState) (l : Sample) : (s.setPhase f l).respValid = s.respValid := rfl
@[simp] theorem State.setPhase_respStatus (f : FstState) (l : Sample) : (s.setPhase f l).respStatus = s.respStatus := rfl
@[simp] theorem State.setPhase_respData (f : FstState) (l : Sample) : (s.setPhase f l).respData = s.respData := rfl
@[simp] theorem State.setPhase_inputs (f : FstState) (l : Sample) : (s.setPhase f l).inputs = s.inputs := rfl

/-! `State.setCounter` -/

@[simp] theorem State.setCounter_cfg (c : Word) : (s.setCounter c).cfg = s.cfg := rfl
@[simp] theorem State.setCounter_rom (c : Word) : (s.setCounter c).rom = s.rom := rfl
@[simp] theorem State.setCounter_fst (c : Word) : (s.setCounter c).fst = s.fst := rfl
@[simp] theorem State.setCounter_last (c : Word) : (s.setCounter c).last = s.last := rfl
@[simp] theorem State.setCounter_counter (c : Word) : (s.setCounter c).counter = c := rfl
@[simp] theorem State.setCounter_zlast (c : Word) : (s.setCounter c).zlast = s.zlast := rfl
@[simp] theorem State.setCounter_zprimed (c : Word) : (s.setCounter c).zprimed = s.zprimed := rfl
@[simp] theorem State.setCounter_fault (c : Word) : (s.setCounter c).fault = s.fault := rfl
@[simp] theorem State.setCounter_respValid (c : Word) : (s.setCounter c).respValid = s.respValid := rfl
@[simp] theorem State.setCounter_respStatus (c : Word) : (s.setCounter c).respStatus = s.respStatus := rfl
@[simp] theorem State.setCounter_respData (c : Word) : (s.setCounter c).respData = s.respData := rfl
@[simp] theorem State.setCounter_inputs (c : Word) : (s.setCounter c).inputs = s.inputs := rfl

/-! `State.setIndex` -/

@[simp] theorem State.setIndex_cfg (z p : Bool) : (s.setIndex z p).cfg = s.cfg := rfl
@[simp] theorem State.setIndex_rom (z p : Bool) : (s.setIndex z p).rom = s.rom := rfl
@[simp] theorem State.setIndex_fst (z p : Bool) : (s.setIndex z p).fst = s.fst := rfl
@[simp] theorem State.setIndex_last (z p : Bool) : (s.setIndex z p).last = s.last := rfl
@[simp] theorem State.setIndex_counter (z p : Bool) : (s.setIndex z p).counter = s.counter := rfl
@[simp] theorem State.setIndex_zlast (z p : Bool) : (s.setIndex z p).zlast = z := rfl
@[simp] theorem State.setIndex_zprimed (z p : Bool) : (s.setIndex z p).zprimed = p := rfl
@[simp] theorem State.setIndex_fault (z p : Bool) : (s.setIndex z p).fault = s.fault := rfl
@[simp] theorem State.setIndex_respValid (z p : Bool) : (s.setIndex z p).respValid = s.respValid := rfl
@[simp] theorem State.setIndex_respStatus (z p : Bool) : (s.setIndex z p).respStatus = s.respStatus := rfl
@[simp] theorem State.setIndex_respData (z p : Bool) : (s.setIndex z p).respData = s.respData := rfl
@[simp] theorem State.setIndex_inputs (z p : Bool) : (s.setIndex z p).inputs = s.inputs := rfl

/-! `State.setFault` -/

@[simp] theorem State.setFault_cfg : (s.setFault).cfg = s.cfg := rfl
@[simp] theorem State.setFault_rom : (s.setFault).rom = s.rom := rfl
@[simp] theorem State.setFault_fst : (s.setFault).fst = s.fst := rfl
@[simp] theorem State.setFault_last : (s.setFault).last = s.last := rfl
@[simp] theorem State.setFault_counter : (s.setFault).counter = s.counter := rfl
@[simp] theorem State.setFault_zlast : (s.setFault).zlast = s.zlast := rfl
@[simp] theorem State.setFault_zprimed : (s.setFault).zprimed = s.zprimed := rfl
@[simp] theorem State.setFault_fault : (s.setFault).fault = true := rfl
@[simp] theorem State.setFault_respValid : (s.setFault).respValid = s.respValid := rfl
@[simp] theorem State.setFault_respStatus : (s.setFault).respStatus = s.respStatus := rfl
@[simp] theorem State.setFault_respData : (s.setFault).respData = s.respData := rfl
@[simp] theorem State.setFault_inputs : (s.setFault).inputs = s.inputs := rfl

/-! `State.respondIllegal` -/

@[simp] theorem State.respondIllegal_cfg : (s.respondIllegal).cfg = s.cfg := rfl
@[simp] theorem State.respondIllegal_rom : (s.respondIllegal).rom = s.rom := rfl
@[simp] theorem State.respondIllegal_fst : (s.respondIllegal).fst = s.fst := rfl
@[simp] theorem State.respondIllegal_last : (s.respondIllegal).last = s.last := rfl
@[simp] theorem State.respondIllegal_counter : (s.respondIllegal).counter = s.counter := rfl
@[simp] theorem State.respondIllegal_zlast : (s.respondIllegal).zlast = s.zlast := rfl
@[simp] theorem State.respondIllegal_zprimed : (s.respondIllegal).zprimed = s.zprimed := rfl
@[simp] theorem State.respondIllegal_fault : (s.respondIllegal).fault = s.fault := rfl
@[simp] theorem State.respondIllegal_respValid : (s.respondIllegal).respValid = true := rfl
@[simp] theorem State.respondIllegal_respStatus : (s.respondIllegal).respStatus = Status.code .illegalCommand := rfl
@[simp] theorem State.respondIllegal_respData : (s.respondIllegal).respData = 0#128 := rfl
@[simp] theorem State.respondIllegal_inputs : (s.respondIllegal).inputs = s.inputs := rfl

/-! `State.raiseFault` -/

@[simp] theorem State.raiseFault_cfg : (s.raiseFault).cfg = s.cfg := rfl
@[simp] theorem State.raiseFault_rom : (s.raiseFault).rom = s.rom := rfl
@[simp] theorem State.raiseFault_fst : (s.raiseFault).fst = s.fst := rfl
@[simp] theorem State.raiseFault_last : (s.raiseFault).last = s.last := rfl
@[simp] theorem State.raiseFault_counter : (s.raiseFault).counter = s.counter := rfl
@[simp] theorem State.raiseFault_zlast : (s.raiseFault).zlast = s.zlast := rfl
@[simp] theorem State.raiseFault_zprimed : (s.raiseFault).zprimed = s.zprimed := rfl
@[simp] theorem State.raiseFault_fault : (s.raiseFault).fault = true := rfl
@[simp] theorem State.raiseFault_respValid : (s.raiseFault).respValid = true := rfl
@[simp] theorem State.raiseFault_respStatus : (s.raiseFault).respStatus = Status.code .fault := rfl
@[simp] theorem State.raiseFault_respData : (s.raiseFault).respData = 0#128 := rfl
@[simp] theorem State.raiseFault_inputs : (s.raiseFault).inputs = s.inputs := rfl

/-! `State.rst` -/

@[simp] theorem State.rst_cfg : (s.rst).cfg = s.cfg := rfl
@[simp] theorem State.rst_rom : (s.rst).rom = s.rom := rfl
@[simp] theorem State.rst_fst : (s.rst).fst = if s.cfg.variant.hasDecoder then .N0 else s.fst := rfl
@[simp] theorem State.rst_last : (s.rst).last = if s.cfg.variant.hasDecoder then 0b11#2 else s.last := rfl
@[simp] theorem State.rst_counter : (s.rst).counter = if s.cfg.variant.hasCounter then 0#128 else s.counter := rfl
@[simp] theorem State.rst_zlast : (s.rst).zlast = if s.cfg.variant.hasIndex then false else s.zlast := rfl
@[simp] theorem State.rst_zprimed : (s.rst).zprimed = if s.cfg.variant.hasIndex then false else s.zprimed := rfl
@[simp] theorem State.rst_fault : (s.rst).fault = false := rfl
@[simp] theorem State.rst_respValid : (s.rst).respValid = false := rfl
@[simp] theorem State.rst_respStatus : (s.rst).respStatus = 0x0#4 := rfl
@[simp] theorem State.rst_respData : (s.rst).respData = 0#128 := rfl
@[simp] theorem State.rst_inputs : (s.rst).inputs = s.inputs := rfl

/-! `State.idle` -/

@[simp] theorem State.idle_cfg : (s.idle).cfg = s.cfg := rfl
@[simp] theorem State.idle_rom : (s.idle).rom = s.rom := rfl
@[simp] theorem State.idle_fst : (s.idle).fst = s.fst := rfl
@[simp] theorem State.idle_last : (s.idle).last = s.last := rfl
@[simp] theorem State.idle_counter : (s.idle).counter = s.counter := rfl
@[simp] theorem State.idle_zlast : (s.idle).zlast = s.zlast := rfl
@[simp] theorem State.idle_zprimed : (s.idle).zprimed = s.zprimed := rfl
@[simp] theorem State.idle_fault : (s.idle).fault = s.fault := rfl
@[simp] theorem State.idle_respValid : (s.idle).respValid = false := rfl
@[simp] theorem State.idle_respStatus : (s.idle).respStatus = s.respStatus := rfl
@[simp] theorem State.idle_respData : (s.idle).respData = s.respData := rfl
@[simp] theorem State.idle_inputs : (s.idle).inputs = s.inputs := rfl

/-! `State.evaluateIndex` -/

@[simp] theorem State.evaluateIndex_cfg (z : Bool) : (s.evaluateIndex z).cfg = s.cfg := rfl
@[simp] theorem State.evaluateIndex_rom (z : Bool) : (s.evaluateIndex z).rom = s.rom := rfl
@[simp] theorem State.evaluateIndex_fst (z : Bool) : (s.evaluateIndex z).fst = s.fst := rfl
@[simp] theorem State.evaluateIndex_last (z : Bool) : (s.evaluateIndex z).last = s.last := rfl
@[simp] theorem State.evaluateIndex_counter (z : Bool) : (s.evaluateIndex z).counter = s.counter := rfl
@[simp] theorem State.evaluateIndex_zlast (z : Bool) : (s.evaluateIndex z).zlast = z := rfl
@[simp] theorem State.evaluateIndex_zprimed (z : Bool) : (s.evaluateIndex z).zprimed = true := rfl
@[simp] theorem State.evaluateIndex_fault (z : Bool) : (s.evaluateIndex z).fault = s.fault := rfl
@[simp] theorem State.evaluateIndex_respValid (z : Bool) : (s.evaluateIndex z).respValid = s.respValid := rfl
@[simp] theorem State.evaluateIndex_respStatus (z : Bool) : (s.evaluateIndex z).respStatus = s.respStatus := rfl
@[simp] theorem State.evaluateIndex_respData (z : Bool) : (s.evaluateIndex z).respData = s.respData := rfl
@[simp] theorem State.evaluateIndex_inputs (z : Bool) : (s.evaluateIndex z).inputs = s.inputs := rfl

/-! `State.iReset` -/

@[simp] theorem State.iReset_cfg : (s.iReset).cfg = s.cfg := rfl
@[simp] theorem State.iReset_rom : (s.iReset).rom = s.rom := rfl
@[simp] theorem State.iReset_fst : (s.iReset).fst = s.fst := rfl
@[simp] theorem State.iReset_last : (s.iReset).last = s.last := rfl
@[simp] theorem State.iReset_counter : (s.iReset).counter = s.counter := rfl
@[simp] theorem State.iReset_zlast : (s.iReset).zlast = false := rfl
@[simp] theorem State.iReset_zprimed : (s.iReset).zprimed = false := rfl
@[simp] theorem State.iReset_fault : (s.iReset).fault = s.fault := rfl
@[simp] theorem State.iReset_respValid : (s.iReset).respValid = s.respValid := rfl
@[simp] theorem State.iReset_respStatus : (s.iReset).respStatus = s.respStatus := rfl
@[simp] theorem State.iReset_respData : (s.iReset).respData = s.respData := rfl
@[simp] theorem State.iReset_inputs : (s.iReset).inputs = s.inputs := rfl

/-! `State.tReset` -/

@[simp] theorem State.tReset_cfg : (s.tReset).cfg = s.cfg := rfl
@[simp] theorem State.tReset_rom : (s.tReset).rom = s.rom := rfl
@[simp] theorem State.tReset_fst : (s.tReset).fst = .N0 := rfl
@[simp] theorem State.tReset_last : (s.tReset).last = s.last := rfl
@[simp] theorem State.tReset_counter : (s.tReset).counter = s.counter := rfl
@[simp] theorem State.tReset_zlast : (s.tReset).zlast = s.zlast := rfl
@[simp] theorem State.tReset_zprimed : (s.tReset).zprimed = s.zprimed := rfl
@[simp] theorem State.tReset_fault : (s.tReset).fault = s.fault := rfl
@[simp] theorem State.tReset_respValid : (s.tReset).respValid = s.respValid := rfl
@[simp] theorem State.tReset_respStatus : (s.tReset).respStatus = s.respStatus := rfl
@[simp] theorem State.tReset_respData : (s.tReset).respData = s.respData := rfl
@[simp] theorem State.tReset_inputs : (s.tReset).inputs = s.inputs := rfl

/-! `State.vReset` -/

@[simp] theorem State.vReset_cfg : (s.vReset).cfg = s.cfg := rfl
@[simp] theorem State.vReset_rom : (s.vReset).rom = s.rom := rfl
@[simp] theorem State.vReset_fst : (s.vReset).fst = s.fst := rfl
@[simp] theorem State.vReset_last : (s.vReset).last = 0b11#2 := rfl
@[simp] theorem State.vReset_counter : (s.vReset).counter = s.counter := rfl
@[simp] theorem State.vReset_zlast : (s.vReset).zlast = s.zlast := rfl
@[simp] theorem State.vReset_zprimed : (s.vReset).zprimed = s.zprimed := rfl
@[simp] theorem State.vReset_fault : (s.vReset).fault = s.fault := rfl
@[simp] theorem State.vReset_respValid : (s.vReset).respValid = s.respValid := rfl
@[simp] theorem State.vReset_respStatus : (s.vReset).respStatus = s.respStatus := rfl
@[simp] theorem State.vReset_respData : (s.vReset).respData = s.respData := rfl
@[simp] theorem State.vReset_inputs : (s.vReset).inputs = s.inputs := rfl

/-! `State.qReset` -/

@[simp] theorem State.qReset_cfg : (s.qReset).cfg = s.cfg := rfl
@[simp] theorem State.qReset_rom : (s.qReset).rom = s.rom := rfl
@[simp] theorem State.qReset_fst : (s.qReset).fst = .N0 := rfl
@[simp] theorem State.qReset_last : (s.qReset).last = 0b11#2 := rfl
@[simp] theorem State.qReset_counter : (s.qReset).counter = s.counter := rfl
@[simp] theorem State.qReset_zlast : (s.qReset).zlast = s.zlast := rfl
@[simp] theorem State.qReset_zprimed : (s.qReset).zprimed = s.zprimed := rfl
@[simp] theorem State.qReset_fault : (s.qReset).fault = s.fault := rfl
@[simp] theorem State.qReset_respValid : (s.qReset).respValid = s.respValid := rfl
@[simp] theorem State.qReset_respStatus : (s.qReset).respStatus = s.respStatus := rfl
@[simp] theorem State.qReset_respData : (s.qReset).respData = s.respData := rfl
@[simp] theorem State.qReset_inputs : (s.qReset).inputs = s.inputs := rfl

/-! `State.takeInput` -/

@[simp] theorem State.takeInput_cfg : (s.takeInput).cfg = s.cfg := rfl
@[simp] theorem State.takeInput_rom : (s.takeInput).rom = s.rom := rfl
@[simp] theorem State.takeInput_fst : (s.takeInput).fst = s.fst := rfl
@[simp] theorem State.takeInput_last : (s.takeInput).last = s.last := rfl
@[simp] theorem State.takeInput_counter : (s.takeInput).counter = s.counter := rfl
@[simp] theorem State.takeInput_zlast : (s.takeInput).zlast = s.zlast := rfl
@[simp] theorem State.takeInput_zprimed : (s.takeInput).zprimed = s.zprimed := rfl
@[simp] theorem State.takeInput_fault : (s.takeInput).fault = s.fault := rfl
@[simp] theorem State.takeInput_respValid : (s.takeInput).respValid = s.respValid := rfl
@[simp] theorem State.takeInput_respStatus : (s.takeInput).respStatus = s.respStatus := rfl
@[simp] theorem State.takeInput_respData : (s.takeInput).respData = s.respData := rfl
@[simp] theorem State.takeInput_inputs : (s.takeInput).inputs = s.inputs.tail := rfl

end

end Sys2Proof.Machine
end

