-- ==== Sys2Proof/Laws/Counter.lean ====
section
/-! SUPPORT. The W-bit patterns of the counter and the data buses: what lies above the W wires is zero, a stored number
reads back, and the saturating add is the clamped sum. -/

namespace Sys2Proof

namespace Machine

/-! ### The wires of a bus -/

theorem wires_toNat (c : Config) (x : Word) :
    (c.wires x).toNat = x.toNat % 2 ^ c.counterWidth % 2 ^ 128 := by
  simp [Config.wires]

@[simp] theorem setWidth_wires (c : Config) (h : c.counterWidth ≤ 128) (x : Word) :
    (c.wires x).setWidth c.counterWidth = x.setWidth c.counterWidth := by
  apply BitVec.eq_of_getLsbD_eq
  intro i hi
  simp only [Config.wires, BitVec.getLsbD_setWidth]
  have h1 : i < 128 := by omega
  simp [hi, h1]

/-- Reading the wires twice changes nothing. -/
@[simp] theorem wires_wires (c : Config) (x : Word) : c.wires (c.wires x) = c.wires x := by
  apply BitVec.eq_of_getLsbD_eq
  intro i hi
  simp only [Config.wires, BitVec.getLsbD_setWidth]
  by_cases h : i < c.counterWidth <;> simp [h, hi]

@[simp] theorem wires_zero (c : Config) : c.wires 0#128 = 0#128 := by
  simp [Config.wires]

/-- A number that fits the W wires passes them unchanged. -/
theorem wires_of_lt (c : Config) {x : Word} (h : x.toNat < 2 ^ c.counterWidth) : c.wires x = x := by
  apply BitVec.eq_of_toNat_eq
  rw [wires_toNat, Nat.mod_eq_of_lt h, Nat.mod_eq_of_lt x.isLt]

theorem width_pos {c : Config} (h : c.widthLegal = true) : 4 ≤ c.counterWidth ∧ c.counterWidth ≤ 128 := by
  simpa [Config.widthLegal] using h

theorem wires_ofNat_small {c : Config} (h : c.widthLegal = true) {n : Nat} (hn : n < 16) :
    c.wires (BitVec.ofNat 128 n) = BitVec.ofNat 128 n := by
  apply wires_of_lt
  have h16 : 2 ^ 4 ≤ 2 ^ c.counterWidth := Nat.pow_le_pow_right (by decide) (width_pos h).1
  have : (BitVec.ofNat 128 n).toNat = n := by
    simp only [BitVec.toNat_ofNat]
    exact Nat.mod_eq_of_lt (by omega)
  omega

/-- A stored pattern occupies the W wires only. -/
@[simp] theorem wires_counterPattern (c : Config) (v : Int) : c.wires (c.counterPattern v) = c.counterPattern v := by
  apply BitVec.eq_of_getLsbD_eq
  intro i hi
  simp only [Config.wires, Config.counterPattern, BitVec.getLsbD_setWidth]
  by_cases h : i < c.counterWidth
  · simp [h, hi]
  · simp [h, BitVec.getLsbD_of_ge _ _ (Nat.le_of_not_lt h)]

theorem setWidth_counterPattern {c : Config} (h : c.counterWidth ≤ 128) (v : Int) :
    (c.counterPattern v).setWidth c.counterWidth = BitVec.ofInt c.counterWidth v := by
  apply BitVec.eq_of_getLsbD_eq
  intro i hi
  simp only [Config.counterPattern, BitVec.getLsbD_setWidth]
  have h1 : i < 128 := by omega
  simp [hi, h1]

/-! ### Numbers -/

/-- A pattern's number lies within the counter's bounds (00_scope.md R11). -/
theorem counterValue_bounds {c : Config} (h : c.widthLegal = true) (x : Word) :
    c.counterMin ≤ c.counterValue x ∧ c.counterValue x ≤ c.counterMax := by
  have hw := width_pos h
  unfold Config.counterMin Config.counterMax Config.counterValue
  split
  · have h1 := BitVec.le_toInt (x.setWidth c.counterWidth)
    have h2 := BitVec.toInt_lt (x := x.setWidth c.counterWidth)
    constructor
    · exact h1
    · omega
  · have h2 := (x.setWidth c.counterWidth).isLt
    constructor
    · omega
    · have : ((x.setWidth c.counterWidth).toNat : Int) < ((2 ^ c.counterWidth : Nat) : Int) := by exact_mod_cast h2
      push_cast at this
      omega

/-- A number within the bounds reads back as it was stored. -/
theorem counterValue_counterPattern {c : Config} (h : c.widthLegal = true) {v : Int} (h1 : c.counterMin ≤ v)
    (h2 : v ≤ c.counterMax) : c.counterValue (c.counterPattern v) = v := by
  have hw := width_pos h
  unfold Config.counterValue
  rw [setWidth_counterPattern hw.2]
  unfold Config.counterMin at h1
  unfold Config.counterMax at h2
  split <;> rename_i hs
  · rw [if_pos hs] at h1 h2
    exact BitVec.toInt_ofInt_eq_self (by omega) h1 (by omega)
  · rw [if_neg hs] at h1 h2
    rw [BitVec.toNat_ofInt]
    have : v % ((2 ^ c.counterWidth : Nat) : Int) = v := Int.emod_eq_of_lt h1 (by push_cast; omega)
    omega

theorem counterMin_le_counterMax {c : Config} (h : c.widthLegal = true) : c.counterMin ≤ c.counterMax :=
  le_trans (counterValue_bounds h 0#128).1 (counterValue_bounds h 0#128).2

theorem clamp_bounds {v lo hi : Int} (h : lo ≤ hi) : lo ≤ clamp v lo hi ∧ clamp v lo hi ≤ hi := by
  unfold clamp
  split
  · omega
  · split <;> omega

/-- `SAT_ADD` is the clamped sum (42_decoder.md R153). -/
theorem counterValue_satAdd {c : Config} (h : c.widthLegal = true) (x : Word) (m : Movement) :
    c.counterValue (satAdd c x m) = clamp (c.counterValue x + m.toInt) c.counterMin c.counterMax :=
  have hb := clamp_bounds (v := c.counterValue x + m.toInt) (counterMin_le_counterMax h)
  counterValue_counterPattern h hb.1 hb.2

@[simp] theorem wires_satAdd (c : Config) (x : Word) (m : Movement) : c.wires (satAdd c x m) = satAdd c x m :=
  wires_counterPattern c _

/-- A counter on its W wires stays on them, whatever the update's result. -/
theorem wires_countResult (c : Config) {x : Word} (h : c.wires x = x) (r : UpdateResult) :
    c.wires (countResult c x r) = countResult c x r := by
  unfold countResult
  split
  · exact wires_satAdd c _ _
  · exact h
  · exact h

end Machine

end Sys2Proof
end

