-- ==== Sys2Proof/Laws/Decode.lean ====
section
/-! SUPPORT. The decoder and the encoder: which row a word belongs to. -/

namespace Sys2Proof

/-- The row of an instruction is the row of its opcode field (30_encoding.md R72, R73). -/
theorem decode_op (c : Command) : (decode c).op = Op.ofCode (c.cmd.extractLsb' 3 3) := by
  unfold decode
  cases h : Op.ofCode (c.cmd.extractLsb' 3 3) <;> rfl

@[simp] theorem Op.ofCode_code (o : Op) : Op.ofCode o.code = o := by cases o <;> rfl

@[simp] theorem Op.code_ofCode (c : BitVec 3) : (Op.ofCode c).code = c := by revert c; decide

/-- A number of more than six bits is no command. -/
theorem decodeTableWord_wide {n w : Nat} (h : 64 ≤ w) : decodeTableWord n w = none := by
  simp [decodeTableWord, decodeWord, Nat.not_lt.mpr h, Except.toOption]

/-- A number of at most six bits is the command it presents. -/
theorem decodeTableWord_of_lt {n w : Nat} (h : w < 64) :
    decodeTableWord n w = some (decode ⟨BitVec.ofNat 6 w, 0#128⟩) := by
  simp [decodeTableWord, decodeWord, h, Except.toOption]

end Sys2Proof
end

