-- ==== Sys2Proof/Laws/Table.lean ====
section
/-! SUPPORT. The ROM and its tables: the address of a cell, the reachable states, and what the property WF gives. -/

namespace Sys2Proof.Machine

/-! ### The ROM data -/

/-- The ROM lists nothing after reset, so it is in canonical form. -/
theorem reset_rom_wf : Memory.wf State.reset.rom = true := rfl

/-- An address of a legal mode holds a cell (20_memory.md R50). -/
theorem tableCell_isSome (m : Memory) {mode : Mode} (h : mode ≠ .code3) (st : FstState) (i : Sample) :
    (tableCell m mode st i).isSome = true := by
  have key : ∀ md ∈ [Mode.full, .half, .quad], ∀ st ∈ FstState.all, ∀ i : Sample,
      (romImage (romAddr md st i)).isSome = true := by decide
  have hm : mode ∈ [Mode.full, .half, .quad] := by cases mode <;> simp at h ⊢
  have hs : st ∈ FstState.all := by cases st <;> decide
  have := key mode hm st hs i
  unfold tableCell romRead
  cases hr : romImage (romAddr mode st i) with
  | none => simp [hr] at this
  | some d => rfl

/-- A legal mode's table gives a transition for every state and input. -/
theorem transition_exists (m : Memory) {mode : Mode} (h : mode ≠ .code3) (st : FstState) (i : Sample) :
    ∃ t, transition m mode st i = some t := by
  obtain ⟨b, hb⟩ := Option.isSome_iff_exists.mp (tableCell_isSome m h st i)
  exact ⟨Transition.ofCell b, by simp [transition, hb]⟩

/-- An address outside the image holds nothing, whatever the list says (20_memory.md R50). -/
theorem romRead_hole (m : Memory) {a : Nat} (h : 96 ≤ a) : romRead m a = none := by
  have hl : (fullImage ++ halfImage ++ quadImage).length = 96 := by decide
  have : romImage a = none := by
    unfold romImage
    exact List.getElem?_eq_none (by omega)
  simp [romRead, this]

/-! ### Reachable states -/

theorem FstState.mem_all (st : FstState) : st ∈ FstState.all := by cases st <;> decide

theorem mem_allSamples (i : Sample) : i ∈ allSamples := by
  revert i; decide

theorem mem_successors {m : Memory} {mode : Mode} {set : List FstState} {st : FstState} :
    st ∈ successors m mode set ↔ ∃ p ∈ set, ∃ i t, transition m mode p i = some t ∧ t.next = st := by
  simp only [successors, List.mem_flatMap, List.mem_filterMap, Option.map_eq_some_iff]
  constructor
  · rintro ⟨p, hp, i, -, t, ht, rfl⟩
    exact ⟨p, hp, i, t, ht, rfl⟩
  · rintro ⟨p, hp, i, t, ht, rfl⟩
    exact ⟨p, hp, i, mem_allSamples i, t, ht, rfl⟩

theorem mem_grow {m : Memory} {mode : Mode} {set : List FstState} {st : FstState} :
    st ∈ grow m mode set ↔ st ∈ set ∨ st ∈ successors m mode set := by
  simp [grow, FstState.mem_all]

/-- A set listed in code order without repeats, as every set `grow` makes is. -/
def inCodeOrder (set : List FstState) : Prop := set = FstState.all.filter fun st => set.contains st

theorem grow_inCodeOrder (m : Memory) (mode : Mode) (set : List FstState) : inCodeOrder (grow m mode set) := by
  unfold inCodeOrder
  conv_lhs => unfold grow
  apply List.filter_congr
  intro st _
  have := mem_grow (m := m) (mode := mode) (set := set) (st := st)
  rw [Bool.eq_iff_iff]
  simp [this]

theorem sublist_grow (m : Memory) (mode : Mode) {set : List FstState} (h : inCodeOrder set) :
    set.Sublist (grow m mode set) := by
  rw [h]
  conv_rhs => unfold grow
  apply List.monotone_filter_right
  intro st
  rw [← h]
  simp only [List.contains_eq_mem, decide_eq_true_eq, Bool.or_eq_true]
  exact Or.inl

theorem growUntil_fixed (m : Memory) (mode : Mode) (fuel : Nat) (set : List FstState) (h : inCodeOrder set)
    (hl : 8 ≤ set.length + fuel) : grow m mode (growUntil m mode fuel set) = growUntil m mode fuel set := by
  induction fuel generalizing set with
  | zero =>
    have hg : (grow m mode set).length ≤ 8 := List.length_filter_le _ _
    exact ((sublist_grow m mode h).eq_of_length_le (by omega)).symm
  | succ fuel ih =>
    unfold growUntil
    split
    · assumption
    · rename_i hne
      apply ih _ (grow_inCodeOrder m mode set)
      have hs := sublist_grow m mode h
      have : set.length < (grow m mode set).length := by
        rcases Nat.lt_or_ge set.length (grow m mode set).length with h' | h'
        · exact h'
        · exact absurd (hs.eq_of_length_le h').symm hne
      omega

theorem subset_growUntil (m : Memory) (mode : Mode) (fuel : Nat) (set : List FstState) :
    ∀ st ∈ set, st ∈ growUntil m mode fuel set := by
  induction fuel generalizing set with
  | zero => exact fun st h => h
  | succ fuel ih =>
    intro st h
    unfold growUntil
    split
    · exact h
    · exact ih _ st (mem_grow.mpr (.inl h))

/-- The initial state is reachable (00_scope.md R18). -/
theorem N0_reachable (m : Memory) (mode : Mode) : FstState.N0 ∈ reachable m mode :=
  subset_growUntil m mode 8 _ _ (by simp)

/-- The reachable states are closed under every input (40_transducer.md R113). -/
theorem next_reachable {m : Memory} {mode : Mode} {st : FstState} {i : Sample} {t : Transition}
    (h : st ∈ reachable m mode) (ht : transition m mode st i = some t) : t.next ∈ reachable m mode := by
  have hf : grow m mode (reachable m mode) = reachable m mode :=
    growUntil_fixed m mode 8 [.N0] (by unfold inCodeOrder; decide) (by simp)
  rw [← hf]
  exact mem_grow.mpr (.inr (mem_successors.mpr ⟨st, h, i, t, ht, rfl⟩))

/-! ### What WF gives -/

theorem hasTransition_iff {m : Memory} {mode : Mode} {st : FstState} {i : Sample} {p : Transition → Bool} :
    hasTransition m mode st i p = true ↔ ∃ t, transition m mode st i = some t ∧ p t = true := by
  unfold hasTransition
  cases transition m mode st i <;> simp

theorem tableWF_iff {m : Memory} {mode : Mode} :
    tableWF m mode = true ↔ wfTotal m mode = true ∧ wfStutter m mode = true ∧ wfDiagonal m mode = true ∧
      wfCycles m mode = true ∧ wfSentinelRows m mode = true ∧ wfNoReachableSentinel m mode = true := by
  simp only [tableWF, Bool.and_eq_true, and_assoc]

/-- WF item 2 (40_transducer.md R102). -/
theorem tableWF_stutter {m : Memory} {mode : Mode} (h : tableWF m mode = true) {st : FstState}
    (hs : st ∈ reachable m mode) : transition m mode st st.phase = some ⟨st, .neutral⟩ := by
  have h2 := (tableWF_iff.mp h).2.1
  unfold wfStutter at h2
  obtain ⟨t, ht, hp⟩ := hasTransition_iff.mp (List.all_eq_true.mp h2 st hs)
  rw [ht]
  obtain ⟨n, o⟩ := t
  simp only [Bool.and_eq_true, beq_iff_eq] at hp
  rw [hp.1, hp.2]

/-- WF item 3 (40_transducer.md R102). -/
theorem tableWF_diagonal {m : Memory} {mode : Mode} (h : tableWF m mode = true) {st : FstState} {i : Sample}
    (hs : st ∈ reachable m mode) (hd : hamming st.phase i = 2) :
    ∃ t, transition m mode st i = some t ∧ t.out = .neutral := by
  have h3 := (tableWF_iff.mp h).2.2.1
  unfold wfDiagonal at h3
  have := List.all_eq_true.mp (List.all_eq_true.mp h3 st hs) i (mem_allSamples i)
  simp only [hd, bne_self_eq_false, Bool.false_or] at this
  obtain ⟨t, ht, hp⟩ := hasTransition_iff.mp this
  exact ⟨t, ht, by simpa using hp⟩

/-- WF item 4 (40_transducer.md R102). -/
theorem tableWF_cycles {m : Memory} {mode : Mode} (h : tableWF m mode = true) :
    outputsFrom m mode .N0 forwardCycle = emissions mode .forward ∧
      outputsFrom m mode .N0 reverseCycle = emissions mode .reverse := by
  have h4 := (tableWF_iff.mp h).2.2.2.1
  simpa [wfCycles] using h4

/-- WF item 6 (40_transducer.md R102). -/
theorem tableWF_noSentinel {m : Memory} {mode : Mode} (h : tableWF m mode = true) {st : FstState} {i : Sample}
    {t : Transition} (hs : st ∈ reachable m mode) (ht : transition m mode st i = some t) :
    t.out ≠ .errorSentinel := by
  have h6 := (tableWF_iff.mp h).2.2.2.2.2
  unfold wfNoReachableSentinel at h6
  obtain ⟨t', ht', hp⟩ :=
    hasTransition_iff.mp (List.all_eq_true.mp (List.all_eq_true.mp h6 st hs) i (mem_allSamples i))
  rw [ht] at ht'
  cases ht'
  simpa using hp

/-! ### The spec's tables -/

theorem specTable_full_wf : tableWF [] .full = true := by decide +kernel

theorem specTable_half_wf : tableWF [] .half = true := by decide +kernel

theorem specTable_quad_wf : tableWF [] .quad = true := by decide +kernel

/-- The tables of 40_transducer.md R105 to R107 are WF (R102). -/
theorem specTable_wf {mode : Mode} (h : mode ≠ .code3) : tableWF [] mode = true := by
  cases mode with
  | full => exact specTable_full_wf
  | half => exact specTable_half_wf
  | quad => exact specTable_quad_wf
  | code3 => exact absurd rfl h

theorem reachable_full : reachable [] .full = FstState.all := by decide +kernel

theorem reachable_half : reachable [] .half = [.N0, .F1, .F3, .R1, .R3, .N2] := by decide +kernel

theorem reachable_quad : reachable [] .quad = [.N0, .F1, .R1, .N2] := by decide +kernel

end Sys2Proof.Machine
end

