-- ==== Sys2Proof/Laws/Ops.lean ====
section
/-! SUPPORT. What each shared operation can do, said once: the preamble, the transducer step, the update, and the edge. -/

namespace Sys2Proof.Machine

/-! ### What a built machine is -/

theorem built_iff {s : State} :
    s.built ↔ s.cfg.mode ≠ .code3 ∧ s.cfg.widthLegal = true ∧ tableWF s.rom s.cfg.mode = true := by
  unfold State.built State.buildProblem Config.modeLegal
  by_cases h1 : s.cfg.mode = .code3
  · simp [h1]
  · by_cases h2 : s.cfg.widthLegal = true
    · by_cases h3 : tableWF s.rom s.cfg.mode = true <;> simp [h1, h2, h3]
    · simp [h1, h2]

/-- Whether a machine can be built depends on its configuration and ROM alone. -/
theorem buildProblem_congr {s t : State} (hc : t.cfg = s.cfg) (hr : t.rom = s.rom) :
    t.buildProblem = s.buildProblem := by
  unfold State.buildProblem
  rw [hc, hr]

@[simp] theorem takeInput_buildProblem (s : State) : s.takeInput.buildProblem = s.buildProblem := rfl

/-! ### The preamble -/

theorem command_refused {op : Op} {body : State → Result} {s : State} {r : Refusal} (h : s.buildProblem = some r) :
    command op body s = .refused r := by
  simp [command, h]

theorem command_latched {op : Op} {body : State → Result} {s : State} (h : s.built) (hf : s.fault = true) :
    command op body s = .next (s.respond .fault 0#128) := by
  simp [command, h, hf]

theorem command_illegal {op : Op} {body : State → Result} {s : State} (h : s.built) (hf : s.fault = false)
    (hl : legal op s.cfg.variant = false) : command op body s = .next s.respondIllegal := by
  simp [command, h, hf, hl]

theorem command_accepts {op : Op} {body : State → Result} {s : State} (h : s.accepts op) :
    command op body s = body s := by
  obtain ⟨h, hf, hl⟩ := h
  simp [command, h, hf, hl]

/-- Everything the preamble can do. -/
theorem command_cases (op : Op) (body : State → Result) (s : State) :
    (∃ r, s.buildProblem = some r ∧ command op body s = .refused r) ∨
    (s.built ∧ s.fault = true ∧ command op body s = .next (s.respond .fault 0#128)) ∨
    (s.built ∧ s.fault = false ∧ legal op s.cfg.variant = false ∧ command op body s = .next s.respondIllegal) ∨
    (s.accepts op ∧ command op body s = body s) := by
  cases hb : s.buildProblem with
  | some r => exact .inl ⟨r, rfl, command_refused hb⟩
  | none =>
    cases hf : s.fault with
    | true => exact .inr (.inl ⟨hb, rfl, command_latched hb hf⟩)
    | false =>
      cases hl : legal op s.cfg.variant with
      | false => exact .inr (.inr (.inl ⟨hb, rfl, rfl, command_illegal hb hf hl⟩))
      | true => exact .inr (.inr (.inr ⟨⟨hb, hf, hl⟩, command_accepts ⟨hb, hf, hl⟩⟩))

/-- The next states of the preamble. -/
theorem command_next {op : Op} {body : State → Result} {s t : State} (h : command op body s = .next t) :
    s.built ∧ ((s.fault = true ∧ t = s.respond .fault 0#128) ∨
      (s.fault = false ∧ legal op s.cfg.variant = false ∧ t = s.respondIllegal) ∨
      (s.fault = false ∧ legal op s.cfg.variant = true ∧ body s = .next t)) := by
  rcases command_cases op body s with ⟨r, -, h'⟩ | ⟨hb, hf, h'⟩ | ⟨hb, hf, hl, h'⟩ | ⟨⟨hb, hf, hl⟩, h'⟩ <;>
    rw [h] at h'
  · cases h'
  · cases h'; exact ⟨hb, .inl ⟨hf, rfl⟩⟩
  · cases h'; exact ⟨hb, .inr (.inl ⟨hf, hl, rfl⟩)⟩
  · exact ⟨hb, .inr (.inr ⟨hf, hl, h'.symm⟩)⟩

/-! ### The transducer step and the update -/

/-- The movement an output stands for. -/
def Output.movement : Output → Option Movement
  | .forward => some .forward
  | .reverse => some .reverse
  | .neutral => none
  | .errorSentinel => none

theorem fstStep_defect {s : State} {i : Sample} {n : FstState}
    (h : transition s.rom s.cfg.mode s.fst i = some ⟨n, .errorSentinel⟩) : fstStep s i = .defect := by
  simp [fstStep, h, Transition.toStep]

theorem fstStep_moved {s : State} {i : Sample} {t : Transition}
    (h : transition s.rom s.cfg.mode s.fst i = some t) (ho : t.out ≠ .errorSentinel) :
    fstStep s i = .moved t.next t.out.movement := by
  obtain ⟨n, o⟩ := t
  cases o <;> simp_all [fstStep, Transition.toStep, Output.movement]

/-- A built machine's step reads a cell: the defect on ErrorSentinel, else a move. -/
theorem fstStep_cases {s : State} (h : s.built) (i : Sample) :
    ∃ t, transition s.rom s.cfg.mode s.fst i = some t ∧
      ((t.out = .errorSentinel ∧ fstStep s i = .defect) ∨
       (t.out ≠ .errorSentinel ∧ fstStep s i = .moved t.next t.out.movement)) := by
  obtain ⟨t, ht⟩ := transition_exists s.rom (built_iff.mp h).1 s.fst i
  refine ⟨t, ht, ?_⟩
  by_cases ho : t.out = .errorSentinel
  · obtain ⟨n, o⟩ := t
    cases ho
    exact .inl ⟨rfl, fstStep_defect ht⟩
  · exact .inr ⟨ho, fstStep_moved ht ho⟩

/-- From a reachable state of a WF table the step moves, to a reachable state (40_transducer.md R113). -/
theorem fstStep_onTable {s : State} (h : s.built) (ho : s.onTable) (i : Sample) :
    ∃ t, transition s.rom s.cfg.mode s.fst i = some t ∧ t.next ∈ reachable s.rom s.cfg.mode ∧
      fstStep s i = .moved t.next t.out.movement := by
  obtain ⟨t, ht⟩ := transition_exists s.rom (built_iff.mp h).1 s.fst i
  exact ⟨t, ht, next_reachable ho ht,
    fstStep_moved ht (tableWF_noSentinel (built_iff.mp h).2.2 ho ht)⟩

theorem qdecode_defect {finish : UpdateResult → State → State} {i : Sample} {s : State} (h : fstStep s i = .defect) :
    qdecode finish i s = .next s.raiseFault := by
  simp [qdecode, h]

theorem qdecode_moved {finish : UpdateResult → State → State} {i : Sample} {s : State} {n : FstState}
    {m : Option Movement} (h : fstStep s i = .moved n m) :
    qdecode finish i s = .next (finish (resolve (validate s.last i) m) (s.setPhase n i)) := by
  simp [qdecode, h]

/-- What an update makes of its result, by variant (42_decoder.md R165). -/
def finishUpdate (z : Bool) (r : UpdateResult) (s : State) : State :=
  match s.cfg.variant with
  | .quadrature => finishQuadrature r s
  | .incremental => finishIncremental r s
  | .indexedIncremental => finishIndexed z r s
  | .indexOnly => s.respondIllegal

/-- Everything an `UPDATE` that runs can do on a built machine. -/
theorem updateBody_cases {z a b : Bool} {s : State} (h : s.built) (hv : s.cfg.variant.hasDecoder = true) :
    ∃ t, transition s.rom s.cfg.mode s.fst (sample a b) = some t ∧
      ((t.out = .errorSentinel ∧ updateBody z a b s = .next s.raiseFault) ∨
       (t.out ≠ .errorSentinel ∧ updateBody z a b s =
          .next (finishUpdate z (resolve (validate s.last (sample a b)) t.out.movement)
            (s.setPhase t.next (sample a b))))) := by
  obtain ⟨t, ht, hc⟩ := fstStep_cases h (sample a b)
  refine ⟨t, ht, ?_⟩
  rcases hc with ⟨ho, hs⟩ | ⟨ho, hs⟩
  · left
    refine ⟨ho, ?_⟩
    unfold updateBody
    cases hvar : s.cfg.variant <;> simp_all [qdecode_defect, Variant.hasDecoder]
  · right
    refine ⟨ho, ?_⟩
    unfold updateBody finishUpdate
    cases hvar : s.cfg.variant <;> simp_all only [State.setPhase_cfg, Variant.hasDecoder, Bool.false_eq_true]
    all_goals exact qdecode_moved hs

/-! ### The edge -/

theorem clockEdge_rst {p : PortInput} {s : State} (h : s.built) (hp : p.rst = true) :
    clockEdge p s = .next s.rst := by
  simp [clockEdge, h, hp]

theorem clockEdge_command {p : PortInput} {s : State} (h : s.built) (hp : p.rst = false) (hc : p.cmdValid = true) :
    clockEdge p s = exec (decode p.command) s := by
  simp [clockEdge, h, hp, hc]

theorem clockEdge_idle {p : PortInput} {s : State} (h : s.built) (hp : p.rst = false) (hc : p.cmdValid = false) :
    clockEdge p s = .next s.idle := by
  simp [clockEdge, h, hp, hc]

/-- Everything a step can do. -/
theorem step_cases (s : State) :
    (∃ r, s.buildProblem = some r ∧ step s = .refused r) ∨
    (s.built ∧ s.pins.rst = true ∧ step s = .next s.takeInput.rst) ∨
    (s.built ∧ s.pins.rst = false ∧ s.pins.cmdValid = true ∧
      step s = exec (decode s.pins.command) s.takeInput) ∨
    (s.built ∧ s.pins.rst = false ∧ s.pins.cmdValid = false ∧ step s = .next s.takeInput.idle) := by
  unfold step
  cases hb : s.buildProblem with
  | some r =>
    left
    exact ⟨r, rfl, by simp [clockEdge, hb]⟩
  | none =>
    have hb' : s.takeInput.built := hb
    cases hr : s.pins.rst with
    | true => exact .inr (.inl ⟨hb, rfl, clockEdge_rst hb' hr⟩)
    | false =>
      cases hc : s.pins.cmdValid with
      | true => exact .inr (.inr (.inl ⟨hb, rfl, rfl, clockEdge_command hb' hr hc⟩))
      | false => exact .inr (.inr (.inr ⟨hb, rfl, rfl, clockEdge_idle hb' hr hc⟩))

end Sys2Proof.Machine
end

