-- ==== Sys2Proof/Laws/Exec.lean ====
section
/-! SUPPORT. What a command's execution is: the preamble around its body, and what each body does to the state. -/

namespace Sys2Proof.Machine

/-- The body of a command, which the preamble lets run or not. -/
def bodyOf : Instr → State → Result
  | .update z a b, s => updateBody z a b s
  | .reset _, s => .next (s.commandReset.respond .ok 0#128)
  | .setCounter _ d, s => .next ((s.setCounter (s.cfg.wires d)).respond .ok 0#128)
  | .readCounter _, s => .next (s.respond .ok (s.cfg.wires s.counter))
  | .readPpc _, s => readPpcBody s
  | .indexUpdate z _, s => .next ((s.evaluateIndex z).respond .ok (edgeData (indexEdge s z)))
  | .reserved110 _, s => .next s.respondIllegal
  | .reserved111 _, s => .next s.respondIllegal

/-- Every command is its body behind the preamble (60_exceptions.md R225). -/
theorem exec_eq_command (i : Instr) (s : State) : exec i s = command i.op (bodyOf i) s := by
  cases i <;> rfl

theorem exec_refused {i : Instr} {s : State} {r : Refusal} (h : s.buildProblem = some r) : exec i s = .refused r := by
  rw [exec_eq_command]; exact command_refused h

theorem exec_latched {i : Instr} {s : State} (h : s.built) (hf : s.fault = true) :
    exec i s = .next (s.respond .fault 0#128) := by
  rw [exec_eq_command]; exact command_latched h hf

theorem exec_illegal {i : Instr} {s : State} (h : s.built) (hf : s.fault = false)
    (hl : legal i.op s.cfg.variant = false) : exec i s = .next s.respondIllegal := by
  rw [exec_eq_command]; exact command_illegal h hf hl

theorem exec_accepts {i : Instr} {s : State} (h : s.accepts i.op) : exec i s = bodyOf i s := by
  rw [exec_eq_command]; exact command_accepts h

/-! ### The pieces of the bodies -/

/-- `RESET`'s writes, register by register: those the variant has (42_decoder.md R156, 43_index.md R194, R198). -/
theorem commandReset_eq (s : State) : s.commandReset =
    { s with
      fst := if s.cfg.variant.hasDecoder then .N0 else s.fst
      last := if s.cfg.variant.hasDecoder then 0b11#2 else s.last
      counter := if s.cfg.variant.hasCounter then 0#128 else s.counter
      zlast := if s.cfg.variant.hasIndex then false else s.zlast
      zprimed := if s.cfg.variant.hasIndex then false else s.zprimed } := by
  unfold State.commandReset
  cases h : s.cfg.variant <;> rfl

theorem readPpcBody_eq {s : State} {n : Nat} (h : s.cfg.mode.ppc = some n) :
    readPpcBody s = .next (s.respond .ok (BitVec.ofNat 128 n)) := by
  simp [readPpcBody, h]

theorem ppc_exists {mode : Mode} (h : mode ≠ .code3) : ∃ n, mode.ppc = some n ∧ n < 16 := by
  cases mode <;> simp [Mode.ppc] at h ⊢

/-- The statuses a command's own effect answers, with the bits that its data may set. -/
theorem tableStatus_eq (last i : Sample) {o : Output} (h : o ≠ .errorSentinel) :
    (resolve (validate last i) o.movement).status.code = tableStatus last i o := by
  have key : ∀ last i : Sample, hamming last i = 2 →
      Status.code (.err (DiagonalError.leaving last)) = 0x4#4 ||| last.setWidth 4 := by decide
  unfold tableStatus validate
  by_cases hd : hamming last i = 2
  · simp only [hd, if_true, if_neg h, resolve, UpdateResult.status]
    exact key last i hd
  · cases o <;> simp_all [resolve, UpdateResult.status, Status.code, Output.movement]

theorem clamp_of_le {v lo hi : Int} (h : lo ≤ v) : clamp v lo hi = if hi < v then hi else v := by
  unfold clamp
  rw [if_neg (by omega)]

/-- The counter after an update, as the rules count it (42_decoder.md R152, R153). -/
theorem tableCount_eq {c : Config} (hw : c.widthLegal = true) (x : Word) (last i : Sample) (o : Output) :
    countResult c x (resolve (validate last i) o.movement) = tableCount c x last i o := by
  have hb := counterValue_bounds hw x
  unfold tableCount validate
  by_cases hd : hamming last i = 2
  · simp [hd, resolve, countResult]
  · cases o
    · simp [hd, resolve, countResult, Output.movement]
    · simp only [hd, if_false, resolve, countResult, Output.movement, satAdd, Movement.toInt, if_true]
      rw [clamp_of_le (by omega)]
      congr 1
      split <;> omega
    · simp only [hd, if_false, resolve, countResult, Output.movement, satAdd, Movement.toInt, reduceCtorEq, if_true]
      congr 1
      unfold clamp
      split
      · omega
      · split <;> omega
    · simp [hd, resolve, countResult, Output.movement]

@[simp] theorem edgeData_true : edgeData true = 1#128 := by decide

@[simp] theorem edgeData_false : edgeData false = 0#128 := by decide

theorem indexEdge_iff {s : State} {z : Bool} :
    indexEdge s z = true ↔ z = true ∧ s.zlast = false ∧ (s.zprimed = true ∨ s.cfg.indexFirstEdge = .report) := by
  simp [indexEdge, and_assoc]

@[simp] theorem finishUpdate_fst (z : Bool) (r : UpdateResult) (s : State) : (finishUpdate z r s).fst = s.fst := by
  unfold finishUpdate; cases h : s.cfg.variant <;> rfl

@[simp] theorem finishUpdate_last (z : Bool) (r : UpdateResult) (s : State) : (finishUpdate z r s).last = s.last := by
  unfold finishUpdate; cases h : s.cfg.variant <;> rfl

@[simp] theorem finishUpdate_cfg (z : Bool) (r : UpdateResult) (s : State) : (finishUpdate z r s).cfg = s.cfg := by
  unfold finishUpdate; cases h : s.cfg.variant <;> rfl

@[simp] theorem finishUpdate_rom (z : Bool) (r : UpdateResult) (s : State) : (finishUpdate z r s).rom = s.rom := by
  unfold finishUpdate; cases h : s.cfg.variant <;> rfl

@[simp] theorem finishUpdate_fault (z : Bool) (r : UpdateResult) (s : State) :
    (finishUpdate z r s).fault = s.fault := by
  unfold finishUpdate; cases h : s.cfg.variant <;> rfl

@[simp] theorem finishUpdate_inputs (z : Bool) (r : UpdateResult) (s : State) :
    (finishUpdate z r s).inputs = s.inputs := by
  unfold finishUpdate; cases h : s.cfg.variant <;> rfl

/-- An update that runs answers the status of its result (42_decoder.md R151). -/
theorem finishUpdate_respStatus (z : Bool) (r : UpdateResult) (s : State) (h : s.cfg.variant.hasDecoder = true) :
    (finishUpdate z r s).respStatus = r.status.code := by
  unfold finishUpdate
  cases hv : s.cfg.variant <;> first | rfl | (rw [hv] at h; cases h)

/-- The counter an update leaves, by variant (42_decoder.md R152, R165, 43_index.md R196). -/
theorem finishUpdate_counter (z : Bool) (r : UpdateResult) (s : State) :
    (finishUpdate z r s).counter =
      if s.cfg.variant.hasCounter = false then s.counter
      else if s.cfg.variant = .indexedIncremental ∧ indexEdge s z = true then 0#128
      else countResult s.cfg s.counter r := by
  unfold finishUpdate
  cases hv : s.cfg.variant <;> simp [Variant.hasCounter, finishQuadrature, finishIncremental, finishIndexed]

/-- The index registers an update leaves: evaluated in INDEXED_INCREMENTAL only (43_index.md R199). -/
theorem finishUpdate_index (z : Bool) (r : UpdateResult) (s : State) :
    (finishUpdate z r s).zlast = (if s.cfg.variant = .indexedIncremental then z else s.zlast) ∧
      (finishUpdate z r s).zprimed = (if s.cfg.variant = .indexedIncremental then true else s.zprimed) := by
  unfold finishUpdate
  cases hv : s.cfg.variant <;> exact ⟨rfl, rfl⟩

/-- Everything an execution that answers a next state can be, one case per body. -/
theorem exec_next {i : Instr} {s t : State} (h : exec i s = .next t) :
    s.built ∧ ((s.fault = true ∧ t = s.respond .fault 0#128) ∨
      (s.fault = false ∧ legal i.op s.cfg.variant = false ∧ t = s.respondIllegal) ∨
      (s.fault = false ∧ legal i.op s.cfg.variant = true ∧ bodyOf i s = .next t)) := by
  rw [exec_eq_command] at h
  exact command_next h

/-- Everything an `UPDATE` that runs and answers a next state can be. -/
theorem updateBody_next {z a b : Bool} {s t : State} (hb : s.built) (hl : legal .update s.cfg.variant = true)
    (h : updateBody z a b s = .next t) :
    ∃ c, transition s.rom s.cfg.mode s.fst (sample a b) = some c ∧
      ((c.out = .errorSentinel ∧ t = s.raiseFault) ∨
       (c.out ≠ .errorSentinel ∧ t = finishUpdate z (resolve (validate s.last (sample a b)) c.out.movement)
          (s.setPhase c.next (sample a b)))) := by
  obtain ⟨c, hc, h'⟩ := updateBody_cases (z := z) (a := a) (b := b) hb hl
  refine ⟨c, hc, ?_⟩
  rcases h' with ⟨ho, h'⟩ | ⟨ho, h'⟩ <;> rw [h] at h' <;> cases h'
  · exact .inl ⟨ho, rfl⟩
  · exact .inr ⟨ho, rfl⟩

/-- A built machine's execution answers a next state. -/
theorem exec_completes {s : State} (h : s.built) (i : Instr) : ∃ t, exec i s = .next t := by
  rw [exec_eq_command]
  rcases command_cases i.op (bodyOf i) s with ⟨r, hr, -⟩ | ⟨-, -, h'⟩ | ⟨-, -, -, h'⟩ | ⟨ha, h'⟩
  · rw [h] at hr; cases hr
  · exact ⟨_, h'⟩
  · exact ⟨_, h'⟩
  · rw [h']
    cases i with
    | update z a b =>
      obtain ⟨c, -, hc⟩ := updateBody_cases (z := z) (a := a) (b := b) h ha.2.2
      rcases hc with ⟨-, hc⟩ | ⟨-, hc⟩ <;> exact ⟨_, hc⟩
    | readPpc u =>
      obtain ⟨n, hn, -⟩ := ppc_exists (built_iff.mp h).1
      exact ⟨_, readPpcBody_eq hn⟩
    | _ => exact ⟨_, rfl⟩

/-- No execution writes the configuration, the ROM or the inputs (20_memory.md R51, 10_state.md R29). -/
theorem exec_keeps {i : Instr} {s t : State} (h : exec i s = .next t) :
    t.cfg = s.cfg ∧ t.rom = s.rom ∧ t.inputs = s.inputs := by
  obtain ⟨hb, ⟨-, rfl⟩ | ⟨-, -, rfl⟩ | ⟨-, hl, hbody⟩⟩ := exec_next h
  · exact ⟨rfl, rfl, rfl⟩
  · exact ⟨rfl, rfl, rfl⟩
  · cases i with
    | update z a b =>
      obtain ⟨c, -, ⟨-, rfl⟩ | ⟨-, rfl⟩⟩ := updateBody_next hb hl hbody
      · exact ⟨rfl, rfl, rfl⟩
      · simp
    | reset u =>
      cases hbody
      rw [commandReset_eq]
      exact ⟨rfl, rfl, rfl⟩
    | readPpc u =>
      obtain ⟨n, hn, -⟩ := ppc_exists (built_iff.mp hb).1
      simp only [bodyOf, readPpcBody_eq hn, Host.Outcome.next.injEq] at hbody
      cases hbody
      exact ⟨rfl, rfl, rfl⟩
    | _ => cases hbody; exact ⟨rfl, rfl, rfl⟩

/-- No step writes the configuration or the ROM, so a machine that can be built stays one. -/
theorem step_keeps {s t : State} (h : step s = .next t) :
    t.cfg = s.cfg ∧ t.rom = s.rom ∧ t.inputs = s.inputs.tail := by
  rcases step_cases s with ⟨r, -, h'⟩ | ⟨-, -, h'⟩ | ⟨-, -, -, h'⟩ | ⟨-, -, -, h'⟩ <;> rw [h] at h'
  · cases h'
  · cases h'; exact ⟨rfl, rfl, rfl⟩
  · exact exec_keeps h'.symm
  · cases h'; exact ⟨rfl, rfl, rfl⟩

/-- Every memory operation keeps the canonical form: no step writes the ROM (20_memory.md R51). -/
theorem step_rom_wf {s t : State} (h : step s = .next t) (hw : Memory.wf s.rom = true) : Memory.wf t.rom = true := by
  rw [(step_keeps h).2.1]; exact hw

end Sys2Proof.Machine
end

