-- ==== Sys2Proof/Laws/PerInstr.lean ====
section
/-! SUPPORT. A statement made for every instruction: its encoding lies in its own row of the opcode map. -/

namespace Sys2Proof.Laws.EncodingInItsRow

/-- The word an instruction encodes to carries its opcode, and matches the row of the opcode map that names it and no
other (30_encoding.md R73). -/
def Statement (i : Instr) : Prop :=
  (encode i).cmd.extractLsb' 3 3 = i.op.code ∧ ∀ r ∈ opcodeMap, r.matches (encode i).cmd = true ↔ r.op = i.op

theorem update (z a b : Bool) : Statement (.update z a b) := by
  cases z <;> cases a <;> cases b <;> exact ⟨by decide, by decide⟩

theorem reset (u : BitVec 3) : Statement (.reset u) := by
  revert u; unfold Statement; decide

theorem setCounter (u : BitVec 3) (d : Word) : Statement (.setCounter u d) := by
  have key : ∀ u : BitVec 3, (Op.code .setCounter ++ u).extractLsb' 3 3 = Op.code .setCounter ∧
      ∀ r ∈ opcodeMap, r.matches (Op.code .setCounter ++ u) = true ↔ r.op = .setCounter := by decide
  exact key u

theorem readCounter (u : BitVec 3) : Statement (.readCounter u) := by
  revert u; unfold Statement; decide

theorem readPpc (u : BitVec 3) : Statement (.readPpc u) := by
  revert u; unfold Statement; decide

theorem indexUpdate (z : Bool) (u : BitVec 2) : Statement (.indexUpdate z u) := by
  revert z u; unfold Statement; decide

theorem reserved110 (u : BitVec 3) : Statement (.reserved110 u) := by
  revert u; unfold Statement; decide

theorem reserved111 (u : BitVec 3) : Statement (.reserved111 u) := by
  revert u; unfold Statement; decide

end Sys2Proof.Laws.EncodingInItsRow
end

