-- ==== Sys2Proof/Laws/Run.lean ====
section
/-! SUPPORT. Runs: their edges one by one, where the last accepted command stands, and that the inputs still to come
reach no execution. -/

namespace Sys2Proof.Machine

/-! ### Edges -/

@[simp] theorem run_zero (s : State) : run 0 s = .next s := rfl

/-- A run of one more edge is a step and, if that answers a next state, the rest of the run. -/
theorem run_succ_eq (n : Nat) (s : State) :
    run (n + 1) s =
      match step s with
      | .next t => run n t
      | .fault f => .fault f
      | .refused r => .refused r := rfl

theorem run_succ {s t : State} (n : Nat) (h : step s = .next t) : run (n + 1) s = run n t := by
  rw [run_succ_eq, h]

/-- A run of one more edge that answers a next state takes its first step to a next state. -/
theorem run_succ_next {s u : State} {n : Nat} (h : run (n + 1) s = .next u) :
    ∃ t, step s = .next t ∧ run n t = .next u := by
  rw [run_succ_eq] at h
  cases hs : step s with
  | next t => exact ⟨t, rfl, by rwa [hs] at h⟩
  | fault f => rw [hs] at h; cases h
  | refused r => rw [hs] at h; cases h

/-- One edge behind a run of others. -/
theorem run_add_one {s u : State} {n : Nat} (h : run n s = .next u) : run (n + 1) s = step u := by
  induction n generalizing s with
  | zero =>
    cases h
    rw [run_succ_eq]
    cases step u <;> rfl
  | succ n ih =>
    obtain ⟨t, ht, hr⟩ := run_succ_next h
    rw [run_succ _ ht]
    exact ih hr

/-- A machine that can be built takes every step. -/
theorem step_completes {s : State} (h : s.built) : ∃ t, step s = .next t := by
  rcases step_cases s with ⟨r, hr, -⟩ | ⟨-, -, h'⟩ | ⟨-, -, -, h'⟩ | ⟨-, -, -, h'⟩
  · rw [h] at hr; cases hr
  · exact ⟨_, h'⟩
  · rw [h']; exact exec_completes (s := s.takeInput) h _
  · exact ⟨_, h'⟩

/-- A step leaves a machine that can be built one. -/
theorem step_built {s t : State} (hb : s.built) (h : step s = .next t) : t.built :=
  (buildProblem_congr (step_keeps h).1 (step_keeps h).2.1).trans hb

/-- An invariant of the step that keeps the machine built holds at the end of every run, and every run has an end. -/
theorem run_keeps {Inv : State → Prop} (step_inv : ∀ s, Inv s → ∃ t, step s = .next t ∧ Inv t) (n : Nat) {s : State}
    (h : Inv s) : ∃ t, run n s = .next t ∧ Inv t := by
  induction n generalizing s with
  | zero => exact ⟨s, rfl, h⟩
  | succ n ih =>
    obtain ⟨t, ht, hi⟩ := step_inv s h
    rw [run_succ n ht]
    exact ih hi

/-- A run within its inputs uses them up one by one. -/
theorem run_inputs {n : Nat} {s t : State} (h : run n s = .next t) : t.inputs = s.inputs.drop n := by
  induction n generalizing s with
  | zero => cases h; rfl
  | succ n ih =>
    obtain ⟨u, hu, hr⟩ := run_succ_next h
    rw [ih hr, (step_keeps hu).2.2, List.drop_tail]

/-! ### The last accepted command -/

theorem acceptsCommand_eq_false {p : PortInput} : p.acceptsCommand = false ↔ p.rst = true ∨ p.cmdValid = false := by
  cases p with
  | mk r v c d => cases r <;> cases v <;> simp [PortInput.acceptsCommand]

theorem acceptsCommand_eq_true {p : PortInput} : p.acceptsCommand = true ↔ p.rst = false ∧ p.cmdValid = true := by
  simp [PortInput.acceptsCommand]

/-- Without an accepted command there is no edge to reach. -/
theorem edgesToLastCommand_eq_zero {l : List PortInput} (h : ∀ q ∈ l, q.rst = true ∨ q.cmdValid = false) :
    edgesToLastCommand l = 0 := by
  induction l with
  | nil => rfl
  | cons p l ih =>
    rw [edgesToLastCommand, ih fun q hq => h q (List.mem_cons_of_mem _ hq)]
    simp [acceptsCommand_eq_false.mpr (h p List.mem_cons_self)]

/-- Edges without a command behind the others do not move the last command. -/
theorem edgesToLastCommand_append (l : List PortInput) {later : List PortInput}
    (h : ∀ q ∈ later, q.rst = true ∨ q.cmdValid = false) :
    edgesToLastCommand (l ++ later) = edgesToLastCommand l := by
  induction l with
  | nil => exact edgesToLastCommand_eq_zero h
  | cons p l ih => rw [List.cons_append, edgesToLastCommand, edgesToLastCommand, ih]

/-- The last command stands where no command follows. -/
theorem edgesToLastCommand_of_last (before : List PortInput) {p : PortInput} {rest : List PortInput}
    (hp : p.acceptsCommand = true) (h : ∀ q ∈ rest, q.rst = true ∨ q.cmdValid = false) :
    edgesToLastCommand (before ++ p :: rest) = before.length + 1 := by
  induction before with
  | nil => simp [edgesToLastCommand, edgesToLastCommand_eq_zero h, hp]
  | cons q l ih => rw [List.cons_append, edgesToLastCommand, ih, List.length_cons]

/-- The last command is among the edges presented. -/
theorem edgesToLastCommand_le (l : List PortInput) : edgesToLastCommand l ≤ l.length := by
  induction l with
  | nil => exact Nat.le_refl _
  | cons p l ih =>
    rw [edgesToLastCommand, List.length_cons]
    split
    · split <;> omega
    · omega

/-! ### The inputs still to come -/

theorem finishUpdate_setInputs (z : Bool) (r : UpdateResult) (s : State) (l : List PortInput) :
    finishUpdate z r { s with inputs := l } = { finishUpdate z r s with inputs := l } := by
  unfold finishUpdate
  cases h : s.cfg.variant <;> rfl

/-- A command's outcome is the same whatever is still to come. -/
theorem exec_setInputs {i : Instr} {s t : State} (l : List PortInput) (h : exec i s = .next t) :
    exec i { s with inputs := l } = .next { t with inputs := l } := by
  obtain ⟨hb, ⟨hf, rfl⟩ | ⟨hf, hl, rfl⟩ | ⟨hf, hl, hbody⟩⟩ := exec_next h
  · exact exec_latched (s := { s with inputs := l }) hb hf
  · exact exec_illegal (s := { s with inputs := l }) hb hf hl
  · rw [exec_accepts (s := { s with inputs := l }) ⟨hb, hf, hl⟩]
    cases i with
    | update z a b =>
      obtain ⟨c, hc, hs⟩ := updateBody_next hb hl hbody
      obtain ⟨c', hc', hs'⟩ := updateBody_cases (z := z) (s := { s with inputs := l }) hb hl
      obtain rfl : c = c' := Option.some.inj (hc.symm.trans hc')
      rcases hs with ⟨ho, rfl⟩ | ⟨ho, rfl⟩ <;> rcases hs' with ⟨ho', h'⟩ | ⟨ho', h'⟩
      · exact h'
      · exact absurd ho ho'
      · exact absurd ho' ho
      · exact h'.trans (congrArg Host.Outcome.next (finishUpdate_setInputs z _ (s.setPhase c.next (sample a b)) l))
    | reset u => cases hbody; simp only [bodyOf, commandReset_eq]; rfl
    | readPpc u =>
      obtain ⟨n, hn, -⟩ := ppc_exists (built_iff.mp hb).1
      simp only [bodyOf, readPpcBody_eq hn, Host.Outcome.next.injEq] at hbody
      cases hbody
      exact readPpcBody_eq (s := { s with inputs := l }) hn
    | _ => cases hbody; rfl

/-- A step that has an input to take is the same whatever comes behind the inputs. -/
theorem step_appendInputs {s t : State} (later : List PortInput) (hn : s.inputs ≠ []) (h : step s = .next t) :
    step { s with inputs := s.inputs ++ later } = .next { t with inputs := t.inputs ++ later } := by
  obtain ⟨p, rest, hi⟩ := List.exists_cons_of_ne_nil hn
  have hs : ∀ s' : State, s'.inputs = p :: rest → s'.pins = p := fun s' h' => by simp [State.pins, h']
  have hnew : step { s with inputs := s.inputs ++ later } = clockEdge p { s with inputs := rest ++ later } := by
    simp [step, State.pins, State.takeInput, hi]
  have htake : s.takeInput = { s with inputs := rest } := by simp [State.takeInput, hi]
  rw [hnew]
  rcases step_cases s with ⟨r, -, h'⟩ | ⟨hb, hr, h'⟩ | ⟨hb, hr, hc, h'⟩ | ⟨hb, hr, hc, h'⟩ <;>
    rw [h] at h' <;> try rw [htake, hs s hi] at *
  · cases h'
  · cases h'; exact clockEdge_rst (s := { s with inputs := rest ++ later }) hb hr
  · rw [clockEdge_command (s := { s with inputs := rest ++ later }) hb hr hc,
      exec_setInputs (s := { s with inputs := rest }) (rest ++ later) h'.symm, (exec_keeps h'.symm).2.2]
  · cases h'; exact clockEdge_idle (s := { s with inputs := rest ++ later }) hb hr hc

/-- A run within its inputs is the same whatever comes behind them. -/
theorem run_appendInputs {n : Nat} {s t : State} (later : List PortInput) (hn : n ≤ s.inputs.length)
    (h : run n s = .next t) :
    run n { s with inputs := s.inputs ++ later } = .next { t with inputs := t.inputs ++ later } := by
  induction n generalizing s with
  | zero => cases h; rfl
  | succ n ih =>
    obtain ⟨u, hu, hr⟩ := run_succ_next h
    have hne : s.inputs ≠ [] := List.ne_nil_of_length_pos (by omega)
    rw [run_succ n (step_appendInputs later hne hu)]
    exact ih (by rw [(step_keeps hu).2.2, List.length_tail]; omega) hr

end Sys2Proof.Machine
end

