-- ==== Sys2Proof/Tests/Slice0.lean ====
section
/-! SUPPORT. The model's own tests: what the checks refuse, words written out from the spec's encoding, one step of each
command with the result 95_test_vectors.md gives, and for each statement with hypotheses a state that meets them. -/

namespace Sys2Proof.Tests

open Sys2Proof Sys2Proof.Machine

/-! ### Helpers -/

/-- The next state of a result, if it has one. -/
def after : Result → Option State
  | .next t => some t
  | .fault _ => none
  | .refused _ => none

/-- A result with a next state that has a property. -/
theorem next_with {r : Result} {p : State → Prop} [DecidablePred p] (h : (after r).any (fun t => p t) = true) :
    ∃ t, r = .next t ∧ p t := by
  cases r <;> simp_all [after]

/-- A block of the spec's tables just after reset, with the counter's width and signedness. -/
def block (mode : Mode) (variant : Variant) (w : Nat := 32) (signed : Bool := true) : State :=
  State.afterRst
    { mode := mode, variant := variant, counterWidth := w, counterSigned := signed, indexFirstEdge := .suppress } [] []

/-- A block with `STATE`, `LAST` and `COUNTER` set. -/
def block.at (s : State) (fst : FstState) (last : Sample) (c : Word) : State :=
  { s with fst := fst, last := last, counter := c }

/-- A block of the spec's tables with a legal mode and width can be built. -/
theorem block_built {mode : Mode} (variant : Variant) {w : Nat} (signed : Bool) (h : mode ≠ .code3) (h1 : 4 ≤ w)
    (h2 : w ≤ 128) : (block mode variant w signed).built :=
  built_iff.mpr ⟨h, by simp [Config.widthLegal, block, State.afterRst, h1, h2], specTable_wf h⟩

/-! ### What the checks refuse -/

theorem test_wf_mode_code3 : Config.wf { Config.standard with mode := .code3 } = false := by decide

theorem test_wf_width_3 : Config.wf { Config.standard with counterWidth := 3 } = false := by decide

theorem test_wf_width_129 : Config.wf { Config.standard with counterWidth := 129 } = false := by decide

theorem test_wf_widths_4_128 :
    Config.wf { Config.standard with counterWidth := 4 } = true ∧
      Config.wf { Config.standard with counterWidth := 128 } = true := by decide

theorem test_wf_dataIn_too_wide :
    (Instr.setCounter 0#3 0x100#128).wf { Config.standard with counterWidth := 8 } = false ∧
      (Instr.setCounter 0#3 0xFF#128).wf { Config.standard with counterWidth := 8 } = true := by decide

theorem test_wf_setCounter_out_of_range :
    (Asm.setCounter 8).wf { Config.standard with counterWidth := 4 } = false ∧
      (Asm.setCounter (-8)).wf { Config.standard with counterWidth := 4 } = true := by decide

theorem test_wf_setPosition_out_of_range :
    (Asm.setPosition (-1)).wf { Config.standard with counterSigned := false } = false := by decide

theorem test_assembler_refuses : (Asm.setCounter 128).assemble { Config.standard with counterWidth := 8 } = none := by
  decide

theorem test_memory_wf_refuses :
    Memory.wf [(3, 0x01#8), (3, 0x02#8)] = false ∧ Memory.wf [(96, 0x01#8)] = false ∧
      Memory.wf [(3, 0x20#8)] = false ∧ Memory.wf [(0, 0x1C#8)] = false ∧ Memory.wf [(0, 0x00#8)] = true := by decide

/-- The cell `F3`, `11` of FULL without its forward movement breaks the cycle sums (40_transducer.md R102 item 4). -/
theorem test_table_wf_cycles : tableWF [(15, 0x00#8)] .full = false := by decide

/-- A movement on the identity input of `N0` (R102 item 2). -/
theorem test_table_wf_stutter : wfStutter [(3, 0x01#8)] .full = false := by decide

/-- A movement on a diagonal input of `N0` (R102 item 3). -/
theorem test_table_wf_diagonal : wfDiagonal [(0, 0x1D#8)] .full = false := by decide

/-- A sentinel in a reachable row (R102 item 6) and none in an unreachable one (R102 item 5). -/
theorem test_table_wf_sentinels :
    wfNoReachableSentinel [(0, 0x03#8)] .full = false ∧ wfSentinelRows [(40, 0x00#8)] .half = false := by decide

/-- A cell of more than five bits, and a mode with no cells (R102 item 1). -/
theorem test_table_wf_total : wfTotal [(3, 0x20#8)] .full = false ∧ wfTotal [] .code3 = false := by decide

theorem test_built_refuses :
    (block .code3 .quadrature).buildProblem = some .modeNotLegal ∧
      (block .full .quadrature 3).buildProblem = some .counterWidthNotLegal ∧
      (block .full .quadrature 129).buildProblem = some .counterWidthNotLegal ∧
      { block .full .quadrature with rom := [(15, 0x00#8)] }.buildProblem = some .tableNotWellFormed := by decide

/-! ### Words written out from 30_encoding.md R73 and R90: `OP` `z` `a` `b` -/

theorem test_decode_update :
    decodeTableWord 8 0b000001 = some (.update false false true) ∧
      decodeTableWord 8 0b000111 = some (.update true true true) := by decide

theorem test_decode_update_z : decodeTableWord 8 0b000101 = some (.update true false true) := by decide

theorem test_decode_update_a : decodeTableWord 8 0b000010 = some (.update false true false) := by decide

theorem test_decode_reset : decodeTableWord 8 0b001000 = some (.reset 0b000#3) := by decide

theorem test_decode_setCounter : decode ⟨0b010000#6, 5#128⟩ = .setCounter 0b000#3 5#128 := by decide

theorem test_decode_setCounter_word : decodeTableWord 8 0b010011 = some (.setCounter 0b011#3 0#128) := by decide

theorem test_decode_readCounter : decodeTableWord 8 0b011000 = some (.readCounter 0b000#3) := by decide

theorem test_decode_readPpc : decodeTableWord 8 0b100000 = some (.readPpc 0b000#3) := by decide

theorem test_decode_indexUpdate :
    decodeTableWord 8 0b101100 = some (.indexUpdate true 0b00#2) ∧
      decodeTableWord 8 0b101001 = some (.indexUpdate false 0b01#2) := by decide

theorem test_decode_reserved110 : decodeTableWord 8 0b110000 = some (.reserved110 0b000#3) := by decide

theorem test_decode_reserved111 : decodeTableWord 8 0b111111 = some (.reserved111 0b111#3) := by decide

theorem test_decode_refuses_seven_bits : decodeTableWord 8 0b1000000 = none := by decide

/-- The encoder against the bytes of 30_encoding.md R90. -/
theorem test_encode_examples :
    (encode (.update true false true)).cmd = 0x05#6 ∧ (encode (.reset 0#3)).cmd = 0x08#6 ∧
      (encode (.readPpc 0#3)).cmd = 0x20#6 ∧ (encode (.indexUpdate true 0#2)).cmd = 0x2C#6 := by decide

/-- SYNC on its four inputs (40_transducer.md R108), `fwd` and `rev` around the cycle (00_scope.md R19). -/
theorem test_sync_and_phases :
    allSamples.map sync = [.N2, .F1, .R1, .N0] ∧
      allSamples.map fwdPhase = [0b10#2, 0b00#2, 0b11#2, 0b01#2] ∧
      allSamples.map revPhase = [0b01#2, 0b11#2, 0b00#2, 0b10#2] := by decide

/-- Statuses by code (30_encoding.md R86): the reserved ones are 0x3 and 0x9 to 0xE. -/
theorem test_statusReserved :
    ((List.range 16).filter fun n => statusReserved (BitVec.ofNat 4 n)) = [3, 9, 10, 11, 12, 13, 14] := by decide

/-! ### One command each, from 95_test_vectors.md -/

/-- 2.4 row 1: HALF, INCREMENTAL, at `F1`, `01`, 7. -/
theorem test_update_forward :
    (after (exec (.update false false false) (block.at (block .half .incremental) .F1 0b01#2 7#128))).map
      (fun t => (t.respStatus, t.fst, t.last, t.counter)) = some (0x1#4, .N2, 0b00#2, 8#128) := by decide

/-- 2.7.2 command 4: a diagonal error with an index edge in HALF. -/
theorem test_update_indexed_error :
    (after (exec (.update true false true)
      { block.at (block .half .indexedIncremental) .F3 0b10#2 1#128 with zprimed := true })).map
      (fun t => (t.respStatus, t.fst, t.last, t.counter, t.zlast)) =
        some (0x6#4, .F1, 0b01#2, 0#128, true) := by decide

/-- 2.8: `RESET` in INDEXED_INCREMENTAL. -/
theorem test_reset_command :
    (after (exec (.reset 0#3)
      { block.at (block .full .indexedIncremental) .F1 0b01#2 2#128 with zlast := true, zprimed := true })).map
      (fun t => (t.respStatus, t.fst, t.last, t.counter, t.zlast, t.zprimed)) =
        some (0x0#4, .N0, 0b11#2, 0#128, false, false) := by decide

/-- 2.10 row 3: `RESET` does not clear the latch. -/
theorem test_reset_command_latched :
    (after (exec (.reset 0#3) { block.at (block .half .incremental) .F2 0b00#2 4#128 with fault := true })).map
      (fun t => (t.respStatus, t.fst, t.counter, t.fault)) = some (0xF#4, .F2, 4#128, true) := by decide

/-- 2.8: `SET_COUNTER` at `F2`, `00`, 9 leaves the phase. -/
theorem test_setCounter :
    (after (exec (.setCounter 0#3 0#128) (block.at (block .full .incremental) .F2 0b00#2 9#128))).map
      (fun t => (t.respStatus, t.fst, t.last, t.counter)) = some (0x0#4, .F2, 0b00#2, 0#128) := by decide

/-- 2.8: at W = 8 the counter takes the pattern 0x80, which is -128; wires 8 and up are not connected. -/
theorem test_setCounter_width :
    (after (exec (.setCounter 0#3 0xF80#128) (block .full .incremental 8))).map
      (fun t => (t.counter, t.cfg.counterValue t.counter)) = some (0x80#128, -128) := by decide

/-- P3 command 12: the counter -1 reads as 0xFFFFFFFF at W = 32. -/
theorem test_readCounter :
    (after (exec (.readCounter 0#3) (block.at (block .full .incremental) .N0 0b11#2 0xFFFFFFFF#128))).map
      (fun t => (t.respStatus, t.respData)) = some (0x0#4, 0xFFFFFFFF#128) := by decide

/-- P5 command 11: `READ_COUNTER` in QUADRATURE is illegal. -/
theorem test_readCounter_illegal :
    (after (exec (.readCounter 0#3) (block .full .quadrature))).map (fun t => (t.respStatus, t.respData)) =
      some (0x8#4, 0#128) := by decide

/-- 2.8: `READ_PPC` in the three modes. -/
theorem test_readPpc :
    [Mode.full, .half, .quad].map
      (fun m => (after (exec (.readPpc 0#3) (block m .quadrature))).map State.respData) =
      [some 1#128, some 2#128, some 4#128] := by decide

/-- P4 commands 1 and 4: the first evaluation is suppressed, a later rise is an edge. -/
theorem test_indexUpdate :
    (after (exec (.indexUpdate true 0#2) (block .full .indexOnly))).map (fun t => (t.respData, t.zlast, t.zprimed)) =
      some (0#128, true, true) ∧
    (after (exec (.indexUpdate true 0#2) { block .full .indexOnly with zprimed := true })).map State.respData =
      some 1#128 := by decide

/-- 2.9: the reserved words. -/
theorem test_reserved110 :
    (after (exec (.reserved110 0#3) (block .full .indexOnly))).map State.respStatus = some 0x8#4 := by decide

theorem test_reserved111 :
    (after (exec (.reserved111 0b111#3) (block .full .quadrature))).map State.respStatus = some 0x8#4 := by decide

/-- 2.10 row 2: a sentinel cell outranks the diagonal error of the same sample, and nothing else is written. -/
theorem test_update_sentinel :
    (after (exec (.update false false true) (block.at (block .half .incremental) .F2 0b10#2 4#128))).map
      (fun t => (t.respStatus, t.fst, t.last, t.counter, t.fault)) =
        some (0xF#4, .F2, 0b10#2, 4#128, true) := by decide

/-- 2.3: SAT_ADD at and inside the bounds. -/
theorem test_satAdd :
    let s8 := (block .full .incremental 8).cfg
    let u8 := (block .full .incremental 8 false).cfg
    let s4 := (block .full .incremental 4).cfg
    satAdd s8 126#128 .forward = 127#128 ∧ satAdd s8 127#128 .forward = 127#128 ∧
      satAdd s8 0x81#128 .reverse = 0x80#128 ∧ satAdd s8 0x80#128 .reverse = 0x80#128 ∧
      satAdd s8 0#128 .reverse = 0xFF#128 ∧ satAdd u8 0#128 .reverse = 0#128 ∧
      satAdd u8 254#128 .forward = 255#128 ∧ satAdd u8 255#128 .forward = 255#128 ∧
      satAdd s4 7#128 .forward = 7#128 ∧ satAdd s4 8#128 .reverse = 8#128 := by decide

/-- 2.3, the largest legal width. -/
theorem test_satAdd_128 :
    let u := (block .full .incremental 128 false).cfg
    satAdd u (BitVec.allOnes 128) .forward = BitVec.allOnes 128 := by decide

/-- 2.11 rows 1 and 2: `RST` wins over a command on the pins; an idle edge clears `RESP_VALID` alone. -/
theorem test_edges :
    (after (step { block.at (block .full .incremental) .F1 0b01#2 5#128 with
      inputs := [⟨true, true, 0x01#6, 0#128⟩], fault := true, respValid := true })).map
      (fun t => (t.fst, t.last, t.counter, t.fault, t.respValid)) = some (.N0, 0b11#2, 0#128, false, false) ∧
    (after (step { block .full .incremental with respValid := true, respStatus := 0x1#4, respData := 3#128 })).map
      (fun t => (t.respValid, t.respStatus, t.respData)) = some (false, 0x1#4, 3#128) := by decide

/-- The first step after reset runs the word that `withFetchWord` presents. -/
theorem test_withFetchWord :
    (after (step (State.reset.withFetchWord 8 0x05))).map
      (fun t => (t.respValid, t.respStatus, t.fst, t.last, t.zlast, t.zprimed)) =
      some (true, 0x0#4, .F1, 0b01#2, true, true) := by decide

/-- 70_reset_and_hazards.md R266: the run ends with the response of its last command, before an idle edge and `RST`. -/
theorem test_endOfRun_before_idle_and_rst :
    (after { block .quad .incremental with
      inputs := [⟨false, true, 0x01#6, 0#128⟩, PortInput.none, ⟨true, true, 0x08#6, 0#128⟩] }.endOfRun).map
      (fun t => (t.respValid, t.respStatus, t.counter, t.inputs.length)) = some (true, 0x1#4, 1#128, 2) := by decide

/-- R266 with 60_exceptions.md R223: a defect in the last command is the end, although `RST` follows it. -/
theorem test_endOfRun_latched_before_rst :
    (after { block.at (block .half .incremental) .F2 0b00#2 4#128 with
      inputs := [⟨false, true, 0x01#6, 0#128⟩, ⟨true, false, 0#6, 0#128⟩] }.endOfRun).map State.fault =
      some true := by decide

/-! ### The hypotheses of the statements can be met

One theorem for each statement that has hypotheses, with a witness for each of its clauses. -/

/-- A block of the spec's tables just after reset runs every command that is legal in its variant. -/
theorem block_accepts {mode : Mode} {variant : Variant} {op : Op} (h : mode ≠ .code3)
    (hl : legal op variant = true) : (block mode variant).accepts op :=
  ⟨block_built variant true h (by decide) (by decide), rfl, hl⟩

/-- A block of the spec's tables just after reset is sound. -/
theorem block_sound {mode : Mode} (variant : Variant) (h : mode ≠ .code3) : (block mode variant).sound :=
  ⟨block_built variant true h (by decide) (by decide), N0_reachable [] mode, rfl⟩

/-- A block with the latch set, which can be built but is not sound. -/
def latched : State := { block .half .incremental with fault := true, respStatus := 0xF#4 }

theorem latched_built : latched.built := block_built .incremental true (mode := .half) (by decide) (w := 32) (by decide)
  (by decide)

theorem test_witness_EncodeOfDecodeIsTheWord : (decode ⟨0x17#6, 9#128⟩).op = .setCounter := by decide

theorem test_witness_EncodingExamplesDecode : Config.standard.wf = true := by decide

/-- The bounds themselves, and the first value outside each. -/
theorem test_witness_AssemblerWritesItsCommand :
    let c := { Config.standard with counterWidth := 4 }
    c.wf = true ∧ (c.counterMin ≤ -8 ∧ -8 ≤ c.counterMax) ∧ (c.counterMin ≤ 7 ∧ 7 ≤ c.counterMax) ∧
      -9 < c.counterMin ∧ c.counterMax < 8 := by decide

/-- Ignored bits that differ: of `RESET`, of `INDEX_UPDATE`, `DATA_IN` of a read, and `z` where there is no index. -/
theorem test_witness_IgnoredBitsHaveNoEffect :
    sameCommand .incremental ⟨0x08#6, 0#128⟩ ⟨0x0F#6, 7#128⟩ ∧
      sameCommand .indexOnly ⟨0x2C#6, 0#128⟩ ⟨0x2F#6, 0#128⟩ ∧
      sameCommand .indexedIncremental ⟨0x18#6, 0#128⟩ ⟨0x18#6, 1#128⟩ ∧
      sameCommand .incremental ⟨0x03#6, 0#128⟩ ⟨0x07#6, 0#128⟩ := by unfold sameCommand; decide

theorem test_witness_StepRunsTheDecodedCommand :
    ∃ (s : State) (p : PortInput) (rest : List PortInput),
      s.built ∧ s.inputs = p :: rest ∧ p.rst = false ∧ p.cmdValid = true :=
  ⟨{ block .full .quadrature with inputs := [⟨false, true, 0x3F#6, 0#128⟩] }, _, _,
    (block_sound .quadrature (mode := .full) (by decide)).1, rfl, rfl, rfl⟩

theorem test_witness_IdleEdgeChangesOnlyRespValid :
    (∃ (s : State) (p : PortInput) (rest : List PortInput),
        s.built ∧ s.inputs = p :: rest ∧ p.rst = false ∧ p.cmdValid = false) ∧
      ∃ s : State, s.built ∧ s.inputs = [] :=
  ⟨⟨{ block .full .quadrature with inputs := [PortInput.none] }, _, _,
    (block_sound .quadrature (mode := .full) (by decide)).1, rfl, rfl, rfl⟩,
   ⟨block .full .quadrature, (block_sound .quadrature (mode := .full) (by decide)).1, rfl⟩⟩

/-- `RST` over a presented command, from a latched block. -/
theorem test_witness_RstLoadsTheResetValues :
    ∃ (s : State) (p : PortInput) (rest : List PortInput), s.built ∧ s.inputs = p :: rest ∧ p.rst = true :=
  ⟨{ latched with inputs := [⟨true, true, 0x01#6, 0#128⟩] }, _, _, latched_built, rfl, rfl⟩

/-- The registers of a block just after reset are well formed, in every variant. -/
theorem block_wf (mode : Mode) (variant : Variant) : (block mode variant).wf where
  rom := rfl
  counter := wires_zero _
  respData := wires_zero _
  status := rfl
  latch := show 0x0#4 = 0xF#4 ↔ false = true by decide
  unprimed := fun _ => rfl
  noDecoder := fun _ => ⟨rfl, rfl⟩
  noCounter := fun _ => rfl
  noIndex := fun _ => ⟨rfl, rfl⟩

theorem test_witness_ResetStateHoldsTheResetValues :
    ∃ (s : State) (p : PortInput) (rest : List PortInput), s.built ∧ s.wf ∧ s.inputs = p :: rest ∧ p.rst = true :=
  ⟨{ block .full .quadrature with inputs := [⟨true, true, 0x01#6, 0#128⟩] }, _, _,
    (block_sound .quadrature (mode := .full) (by decide)).1,
    { block_wf .full .quadrature with }, rfl, rfl⟩

/-- A step that accepts a command, one with `RST`, and one that is idle. -/
theorem test_witness_ResponseHoldsUntilTheNextCommand :
    (∃ s t : State, step s = .next t ∧ s.pins.rst = false ∧ s.pins.cmdValid = true) ∧
      (∃ s t : State, step s = .next t ∧ s.pins.rst = true) ∧
      ∃ s t : State, step s = .next t ∧ s.pins.rst = false ∧ s.pins.cmdValid = false := by
  have h := (block_sound .quadrature (mode := .full) (by decide)).1
  refine ⟨⟨{ block .full .quadrature with inputs := [⟨false, true, 0x01#6, 0#128⟩] }, ?_⟩,
    ⟨{ block .full .quadrature with inputs := [⟨true, true, 0x01#6, 0#128⟩] }, ?_⟩, ⟨block .full .quadrature, ?_⟩⟩
  · obtain ⟨t, ht⟩ := exec_completes h (decode ⟨0x01#6, 0#128⟩)
    exact ⟨t, (clockEdge_command h rfl rfl).trans ht, rfl, rfl⟩
  · exact ⟨_, clockEdge_rst h rfl, rfl⟩
  · exact ⟨_, clockEdge_idle h rfl rfl, rfl, rfl⟩

theorem test_witness_ModeThreeIsRefused : ∃ s : State, s.cfg.mode = .code3 := ⟨block .code3 .incremental, rfl⟩

/-- A machine that can be built, at both ends of the widths, and ones that cannot. -/
theorem test_witness_OnlyUnbuildableMachinesStop :
    (block .full .incremental 4).built ∧ (block .quad .indexOnly 128).built ∧
      ¬ (block .code3 .incremental).built ∧ ¬ (block .full .incremental 3).built ∧
      ¬ (block .full .incremental 129).built := by
  refine ⟨block_built _ _ (by decide) (by decide) (by decide), block_built _ _ (by decide) (by decide) (by decide), ?_⟩
  decide

/-- The latch clear after `RST`, set after an idle edge, set at the end of a run and set throughout a run. -/
theorem test_witness_LatchedFaultStopsTheBlock :
    (latched.built ∧ latched.fault = true) ∧ (∃ t, step latched = .next t) ∧
      (∃ t, step { latched with inputs := [⟨true, false, 0#6, 0#128⟩] } = .next t) ∧
      (∃ t, latched.endOfRun = .next t ∧ t.fault = true) ∧ ∀ p ∈ latched.inputs, p.rst = false :=
  ⟨⟨latched_built, rfl⟩, ⟨_, clockEdge_idle latched_built rfl rfl⟩, ⟨_, clockEdge_rst latched_built rfl⟩,
    ⟨_, rfl, rfl⟩, fun _ h => absurd h (by simp [latched, block, State.afterRst])⟩

/-- A reserved command, and commands that other variants have. -/
theorem test_witness_IllegalCommandAnswersOnly :
    ∀ iv ∈ [(Instr.reserved110 0#3, Variant.quadrature), (.setCounter 0#3 5#128, .quadrature),
        (.update false true true, .indexOnly), (.indexUpdate true 0#2, .indexedIncremental)],
      (block .full iv.2).built ∧ (block .full iv.2).fault = false ∧
        legal iv.1.op (block .full iv.2).cfg.variant = false :=
  fun iv h => ⟨(block_sound iv.2 (mode := .full) (by decide)).1, rfl, by revert iv; decide⟩

theorem test_witness_ReservedOpcodesAnswerIllegal : ∃ s : State, s.built ∧ s.fault = false :=
  ⟨block .full .quadrature, (block_sound .quadrature (mode := .full) (by decide)).1, rfl⟩

/-- 95_test_vectors.md 2.10 row 1. -/
theorem test_witness_SentinelCellLatchesTheFault :
    (block.at (block .half .incremental) .F2 0b00#2 4#128).accepts .update ∧
      transition [] .half .F2 (sample false true) = some ⟨.N0, .errorSentinel⟩ :=
  ⟨⟨(block_sound .incremental (mode := .half) (by decide)).1, rfl, rfl⟩, by decide⟩

/-- Each case of the priority. -/
theorem test_witness_StatusFollowsThePriority :
    (∃ t, exec (.reserved110 0#3) latched = .next t) ∧
      (∃ t, exec (.readPpc 0#3) (block .full .indexOnly) = .next t) ∧
      (∃ t, exec (.update false false true) (block.at (block .half .incremental) .F2 0b10#2 4#128) = .next t) ∧
      (∃ t, exec (.update false false false) (block .full .incremental) = .next t) ∧
      (∃ t, exec (.update false false true) (block .quad .incremental) = .next t) ∧
      (∃ t, exec (.update false true false) (block .quad .incremental) = .next t) ∧
      ∃ t, exec (.update false true true) (block .quad .incremental) = .next t :=
  ⟨exec_completes latched_built _, exec_completes (block_sound _ (by decide)).1 _,
    exec_completes (s := block.at (block .half .incremental) .F2 0b10#2 4#128)
      (block_sound .incremental (mode := .half) (by decide)).1 _,
    exec_completes (block_sound _ (by decide)).1 _, exec_completes (block_sound _ (by decide)).1 _,
    exec_completes (block_sound _ (by decide)).1 _, exec_completes (block_sound _ (by decide)).1 _⟩

theorem test_witness_UpdateInQuadrature :
    (block .quad .quadrature).accepts .update ∧ (block .quad .quadrature).cfg.variant = .quadrature ∧
      transition [] .quad .N0 (sample false true) = some ⟨.F1, .forward⟩ ∧ Output.forward ≠ .errorSentinel :=
  ⟨block_accepts (by decide) rfl, rfl, by decide, by decide⟩

/-- A movement each way, none, and a diagonal. -/
theorem test_witness_UpdateInIncremental :
    (block .quad .incremental).accepts .update ∧ (block .quad .incremental).cfg.variant = .incremental ∧
      transition [] .quad .N0 (sample false true) = some ⟨.F1, .forward⟩ ∧
      transition [] .quad .N0 (sample true false) = some ⟨.R1, .reverse⟩ ∧
      transition [] .quad .N0 (sample true true) = some ⟨.N0, .neutral⟩ ∧
      transition [] .quad .N0 (sample false false) = some ⟨.N2, .neutral⟩ :=
  ⟨block_accepts (by decide) rfl, rfl, by decide, by decide, by decide, by decide⟩

/-- With an index edge (z = 1 once primed) and without one. -/
theorem test_witness_UpdateInIndexedIncremental :
    let s := { block .quad .indexedIncremental with zprimed := true }
    s.accepts .update ∧ s.cfg.variant = .indexedIncremental ∧ s.zlast = false ∧
      (block .quad .indexedIncremental).accepts .update ∧
      transition [] .quad .N0 (sample false true) = some ⟨.F1, .forward⟩ :=
  ⟨⟨(block_sound .indexedIncremental (mode := .quad) (by decide)).1, rfl, rfl⟩, rfl, rfl,
    block_accepts (by decide) rfl, by decide⟩

theorem test_witness_UpdateCompletesFromSoundStates :
    (block .half .indexedIncremental).sound ∧
      (block .half .indexedIncremental).cfg.variant.hasDecoder = true := ⟨block_sound _ (by decide), rfl⟩

theorem test_witness_ResetCommandRestoresTheVariantsRegisters :
    ∀ v, (block .full v).accepts .reset := fun _ => block_accepts (by decide) rfl

/-- The largest operand of a 4-bit counter, and one that does not fit. -/
theorem test_witness_SetCounterStoresTheOperand :
    (block .full .incremental 4).accepts .setCounter ∧
      (15#128).toNat < 2 ^ (block .full .incremental 4).cfg.counterWidth ∧
      ¬ (16#128).toNat < 2 ^ (block .full .incremental 4).cfg.counterWidth :=
  ⟨⟨block_built _ _ (by decide) (by decide) (by decide), rfl, rfl⟩, by decide, by decide⟩

theorem test_witness_ReadCounterAnswersTheCounter : (block .full .incremental).accepts .readCounter :=
  block_accepts (by decide) rfl

theorem test_witness_ReadPpcAnswersThePulsesPerCycle :
    (block .full .quadrature).accepts .readPpc ∧ (block .half .quadrature).accepts .readPpc ∧
      (block .quad .quadrature).accepts .readPpc :=
  ⟨block_accepts (by decide) rfl, block_accepts (by decide) rfl, block_accepts (by decide) rfl⟩

theorem test_witness_IndexUpdateAnswersTheEdge :
    (block .full .indexOnly).accepts .indexUpdate ∧
      { block .full .indexOnly with zprimed := true }.accepts .indexUpdate :=
  ⟨block_accepts (by decide) rfl, (block_sound .indexOnly (mode := .full) (by decide)).1, rfl, rfl⟩

theorem test_witness_IndexEdgeIsReportedOnce : (block .full .indexOnly).accepts .indexUpdate :=
  block_accepts (by decide) rfl

theorem test_witness_RomAndConfigurationNeverChange :
    (∃ t, exec (.update false false true) (block .full .incremental) = .next t) ∧
      ∃ t, step (block .full .incremental) = .next t :=
  ⟨exec_completes (block_sound _ (by decide)).1 _, _, clockEdge_idle (block_sound _ (by decide)).1 rfl rfl⟩

theorem test_witness_ReadsChangeOnlyTheResponse :
    ∀ i ∈ [Instr.readCounter 0#3, .readPpc 0#3, .reserved110 0#3, .reserved111 0#3],
      i.op ∈ [Op.readCounter, .readPpc, .reserved110, .reserved111] ∧
        ∃ t, exec i (block .full .incremental) = .next t :=
  fun i h => ⟨by revert i; decide, exec_completes (block_sound _ (by decide)).1 _⟩

/-- `SET_COUNTER` with an index beside it, `INDEX_UPDATE`, and `RESET` where each kind of register is absent. -/
theorem test_witness_WritesStayInTheirRegisters :
    (∃ t, exec (.setCounter 0#3 5#128) (block .full .indexedIncremental) = .next t) ∧
      (∃ t, exec (.indexUpdate true 0#2) (block .full .indexOnly) = .next t) ∧
      (∃ t, exec (.reset 0#3) (block .full .indexOnly) = .next t) ∧
      ∃ t, exec (.reset 0#3) (block .full .quadrature) = .next t :=
  ⟨exec_completes (block_sound _ (by decide)).1 _, exec_completes (block_sound _ (by decide)).1 _,
    exec_completes (block_sound _ (by decide)).1 _, exec_completes (block_sound _ (by decide)).1 _⟩

/-- An update without a movement in INCREMENTAL, one in QUADRATURE, an illegal one and a defect. -/
theorem test_witness_UpdateFrame :
    (∃ t, exec (.update true true true) (block .full .incremental) = .next t ∧ t.respStatus = 0x0#4) ∧
      (∃ t, exec (.update true true true) (block .full .quadrature) = .next t ∧ t.respStatus = 0x0#4) ∧
      (∃ t, exec (.update true true true) (block .full .indexOnly) = .next t ∧ t.respStatus = 0x8#4) ∧
      ∃ t, exec (.update false false true) (block.at (block .half .incremental) .F2 0b10#2 4#128) = .next t ∧
        t.respStatus = 0xF#4 :=
  ⟨next_with (by decide), next_with (by decide), next_with (by decide), next_with (by decide)⟩

/-- A variant without each kind of register. -/
theorem test_witness_AbsentRegistersAreNeitherReadNorWritten :
    (∃ t, exec (.indexUpdate true 0#2) (block .full .indexOnly) = .next t) ∧
      (block .full .indexOnly).cfg.variant.hasDecoder = false ∧
      (block .full .indexOnly).cfg.variant.hasCounter = false ∧
      (∃ t, exec (.update true false true) (block .full .quadrature) = .next t) ∧
      (block .full .quadrature).cfg.variant.hasIndex = false :=
  ⟨exec_completes (block_sound _ (by decide)).1 _, rfl, rfl, exec_completes (block_sound _ (by decide)).1 _, rfl⟩

theorem test_witness_SpecTablesAreWellFormed : Mode.quad ≠ .code3 := by decide

theorem test_witness_CleanCyclesEmitTheirPulses : Mode.full ≠ .code3 := by decide

/-- The first sample after reset, repeated. -/
theorem test_witness_StutterChangesNothing :
    (block .full .indexedIncremental).sound ∧ (block .full .indexedIncremental).phaseLocked ∧
      (block .full .indexedIncremental).cfg.variant.hasDecoder = true ∧
      sample true true = (block .full .indexedIncremental).last ∧
      indexEdge (block .full .indexedIncremental) true = false :=
  ⟨block_sound _ (by decide), rfl, rfl, by decide, by decide⟩

theorem test_witness_DiagonalJumpIsReportedAndRecovered :
    let s := block .half .incremental
    s.sound ∧ s.specTables ∧ s.phaseLocked ∧ s.cfg.variant.hasDecoder = true ∧
      sample false false = diagonal s.last ∧ sample false true ≠ diagonal (sample false false) :=
  ⟨block_sound _ (by decide), rfl, rfl, rfl, by decide, by decide⟩

/-- One input for each clause, from phase `11`. -/
theorem test_witness_QuadReportsEveryQuarter :
    let s := block .quad .incremental
    s.sound ∧ s.specTables ∧ s.phaseLocked ∧ s.cfg.variant.hasDecoder = true ∧ s.cfg.mode = .quad ∧
      sample false true = fwdPhase s.last ∧ sample true false = revPhase s.last ∧
      sample true false = fwdPhase (fwdPhase (fwdPhase s.last)) ∧
      sample false false = fwdPhase (fwdPhase s.last) ∧ sample true true = s.last :=
  ⟨block_sound _ (by decide), rfl, rfl, rfl, rfl, by decide, by decide, by decide, by decide, by decide⟩

theorem test_witness_FirstSampleAfterReset :
    Config.standard.wf = true ∧ Config.standard.variant.hasDecoder = true := by decide

theorem test_witness_SaturatingAddClampsTheExactSum :
    Config.widthLegal { Config.standard with counterWidth := 4 } = true ∧
      Config.widthLegal { Config.standard with counterWidth := 128 } = true := by decide

/-- Movements each way after `SET_COUNTER`, with the pattern at the bound of a signed byte. -/
theorem test_witness_SetCounterThenMovement :
    (block .quad .incremental 8).accepts .setCounter ∧
      (∃ t, exec (.update false false true) { block .quad .incremental 8 with
          counter := 127#128, respValid := true } = .next t ∧ t.respStatus = 0x1#4 ∧ t.counter = 127#128) ∧
      ∃ t, exec (.update false true false) { block .quad .incremental 8 with
          counter := 0x80#128, respValid := true } = .next t ∧ t.respStatus = 0x2#4 ∧ t.counter = 0x80#128 :=
  ⟨⟨block_built _ _ (by decide) (by decide) (by decide), rfl, rfl⟩, next_with (by decide), next_with (by decide)⟩

theorem test_witness_IndexEdgeAlwaysWins :
    let s := { block .quad .indexedIncremental with zprimed := true }
    s.sound ∧ s.cfg.variant = .indexedIncremental ∧ s.zlast = false ∧ s.zprimed = true :=
  ⟨block_sound .indexedIncremental (mode := .quad) (by decide), rfl, rfl, rfl⟩

theorem test_witness_IndexPulseIsSilent :
    ∃ t, exec (.update true false true) (block .full .indexedIncremental) = .next t :=
  exec_completes (block_sound _ (by decide)).1 _

/-- Counters that the cycle just does not saturate: 4-bit signed, QUAD, 3 + 4 = 7 and -4 - 4 = -8. -/
theorem test_witness_CleanCycleCountsThePulsesPerCycle :
    let s := block .quad .incremental 4
    s.sound ∧ s.cfg.variant = .incremental ∧ s.fst = .N0 ∧ s.last = 0b11#2 ∧ s.cfg.mode.ppc = some 4 ∧
      s.cfg.counterValue 3#128 + 4 ≤ s.cfg.counterMax ∧ s.cfg.counterMin ≤ s.cfg.counterValue 12#128 - 4 :=
  ⟨⟨block_built _ _ (by decide) (by decide) (by decide), N0_reachable [] .quad, rfl⟩, rfl, rfl, rfl, rfl,
    by decide, by decide⟩

/-- With the latch set and clear. -/
theorem test_witness_ResetCommandMatchesRst :
    (latched.built ∧ latched.fault = true ∧ ∃ r, clockEdge ⟨true, false, 0#6, 0#128⟩ latched = .next r) ∧
      (block .full .incremental).built ∧ (block .full .incremental).fault = false ∧
      ∃ r, clockEdge ⟨true, false, 0#6, 0#128⟩ (block .full .incremental) = .next r :=
  ⟨⟨latched_built, rfl, _, clockEdge_rst latched_built rfl⟩, (block_sound _ (by decide)).1, rfl, _,
    clockEdge_rst (block_sound _ (by decide)).1 rfl⟩

theorem test_witness_SoundStatesRunForever : (block .full .indexedIncremental).sound := block_sound _ (by decide)

/-- A well-formed block, and the latched one, which a step keeps well formed too. -/
theorem test_witness_RegistersStayWellFormed :
    (∃ t, (block .full .quadrature).built ∧ (block .full .quadrature).wf ∧ step (block .full .quadrature) = .next t) ∧
      latched.built ∧ latched.wf :=
  ⟨⟨_, (block_sound _ (by decide)).1, block_wf _ _, clockEdge_idle (block_sound _ (by decide)).1 rfl rfl⟩,
    latched_built, { block_wf .half .incremental with status := rfl, latch := by decide }⟩

theorem test_witness_LastIsThePhaseOfState :
    let s := block .full .quadrature
    s.sound ∧ s.specTables ∧ s.phaseLocked ∧ ∃ t, step s = .next t :=
  ⟨block_sound _ (by decide), rfl, rfl, _, clockEdge_idle (block_sound _ (by decide)).1 rfl rfl⟩

/-- The spec's tables, and another table that is WF: the cell `N0`, `00` of FULL leads to `F2` instead of `N2`, which
makes `N2` unreachable, so its row must be sentinels. -/
theorem test_witness_ResetMeetsTheInvariants :
    Config.standard.wf = true ∧ tableWF [] .full = true ∧ Memory.wf [] = true ∧
      (let other : Memory := [(0, 0x08#8), (28, 0x03#8), (29, 0x03#8), (30, 0x03#8), (31, 0x03#8)]
       tableWF other .full = true ∧ Memory.wf other = true) := by
  refine ⟨by decide, specTable_full_wf, rfl, ?_⟩
  decide

/-- The last command behind another one and before an idle edge and `RST`, and a run without a command. -/
theorem test_witness_RunEndsAfterTheLastCommand :
    (∃ (s : State) (before rest : List PortInput) (p : PortInput), s.built ∧ s.inputs = before ++ p :: rest ∧
        p.rst = false ∧ p.cmdValid = true ∧ rest ≠ [] ∧ ∀ q ∈ rest, q.rst = true ∨ q.cmdValid = false) ∧
      ∃ s : State, ∀ q ∈ s.inputs, q.rst = true ∨ q.cmdValid = false :=
  ⟨⟨{ block .quad .incremental with
      inputs := [⟨false, true, 0x01#6, 0#128⟩, ⟨false, true, 0x18#6, 0#128⟩, PortInput.none,
        ⟨true, true, 0x08#6, 0#128⟩] },
    [⟨false, true, 0x01#6, 0#128⟩], [PortInput.none, ⟨true, true, 0x08#6, 0#128⟩], ⟨false, true, 0x18#6, 0#128⟩,
    (block_sound .incremental (mode := .quad) (by decide)).1, rfl, rfl, rfl, by decide, by decide⟩,
   ⟨block .quad .incremental, fun _ h => absurd h (by simp [block, State.afterRst])⟩⟩

theorem test_witness_LaterEdgesDoNotMoveTheEnd :
    (∀ q ∈ [PortInput.none, ⟨true, true, 0x08#6, 0#128⟩], q.rst = true ∨ q.cmdValid = false) ∧
      ∃ t, { block .quad .incremental with inputs := [⟨false, true, 0x01#6, 0#128⟩] }.endOfRun = .next t := by
  refine ⟨by decide, ?_⟩
  obtain ⟨t, ht⟩ := step_completes (s := { block .quad .incremental with inputs := [⟨false, true, 0x01#6, 0#128⟩] })
    (block_sound .incremental (mode := .quad) (by decide)).1
  exact ⟨t, run_succ 0 ht⟩

theorem test_witness_SoundRunsEndWell :
    { block .full .indexedIncremental with inputs := [⟨false, true, 0x05#6, 0#128⟩] }.sound ∧
      Config.standard.wf = true ∧ tableWF [] Config.standard.mode = true :=
  ⟨block_sound .indexedIncremental (mode := .full) (by decide), by decide, specTable_full_wf⟩

end Sys2Proof.Tests
end

