-- ==== Sys2Proof/Proofs/Reachability.lean ====
section
/-! SUPPORT. The computed reachable set is the set of states some list of samples enters (00_scope.md R18,
40_transducer.md R113). -/

namespace Sys2Proof.Machine

variable {m : Memory} {mode : Mode}

/-! ### The state along a list of samples -/

@[simp] theorem stateAfter_nil (m : Memory) (mode : Mode) (st : FstState) : stateAfter m mode st [] = some st := rfl

theorem stateAfter_cons (m : Memory) (mode : Mode) (st : FstState) (i : Sample) (rest : List Sample) :
    stateAfter m mode st (i :: rest) = (transition m mode st i).bind fun t => stateAfter m mode t.next rest := rfl

/-- A run over two lists of samples is a run over the first and then one over the second. -/
theorem stateAfter_append (m : Memory) (mode : Mode) (st : FstState) (xs ys : List Sample) :
    stateAfter m mode st (xs ++ ys) = (stateAfter m mode st xs).bind fun p => stateAfter m mode p ys := by
  induction xs generalizing st with
  | nil => rfl
  | cons i rest ih => simp only [List.cons_append, stateAfter_cons, ih, Option.bind_assoc]

/-- One more sample takes the state entered so far through its transition. -/
theorem stateAfter_concat {st p : FstState} {samples : List Sample} {i : Sample} {t : Transition}
    (hp : stateAfter m mode st samples = some p) (ht : transition m mode p i = some t) :
    stateAfter m mode st (samples ++ [i]) = some t.next := by
  simp [stateAfter_append, stateAfter_cons, hp, ht]

/-! ### Induction over the reachable states -/

/-- Growing a set adds only states with every property that the set has and each transition keeps. -/
theorem growUntil_induction {P : FstState → Prop}
    (hstep : ∀ p i t, P p → transition m mode p i = some t → P t.next) (fuel : Nat) (set : List FstState)
    (hset : ∀ p ∈ set, P p) : ∀ st ∈ growUntil m mode fuel set, P st := by
  induction fuel generalizing set with
  | zero => exact hset
  | succ fuel ih =>
    have hgrow : ∀ st ∈ grow m mode set, P st := by
      intro st hst
      obtain hold | hnew := mem_grow.mp hst
      · exact hset st hold
      · obtain ⟨p, hp, i, t, ht, rfl⟩ := mem_successors.mp hnew
        exact hstep p i t (hset p hp) ht
    unfold growUntil
    split
    · exact hset
    · exact ih _ hgrow

/-- What holds of `N0` and is kept by each transition holds of every reachable state (40_transducer.md R113). -/
theorem reachable_induction {P : FstState → Prop} (hN0 : P .N0)
    (hstep : ∀ p i t, P p → transition m mode p i = some t → P t.next) {st : FstState}
    (hst : st ∈ reachable m mode) : P st :=
  growUntil_induction hstep 8 [.N0] (by simpa using hN0) st hst

/-- A run from a reachable state ends in a reachable state. -/
theorem stateAfter_reachable {st st' : FstState} {samples : List Sample} (hst : st ∈ reachable m mode)
    (h : stateAfter m mode st samples = some st') : st' ∈ reachable m mode := by
  induction samples generalizing st with
  | nil =>
    cases h
    exact hst
  | cons i rest ih =>
    obtain ⟨t, ht, hrest⟩ := Option.bind_eq_some_iff.mp h
    exact ih (next_reachable hst ht) hrest

end Sys2Proof.Machine
end

