-- ==== Sys2Proof/Proofs/Scope.lean ====
section
/-! The obligations of 00_scope.md. -/

namespace Sys2Proof.Machine

/-- Settles O38. Computed to entered: `N0` is entered by no samples, and one more sample enters a successor. Entered to
computed: the reachable set holds `N0` and is closed under every transition, because the growth ends in a fixed point. -/
theorem reachableStatesAreThoseEntered : Obligations.ReachableStatesAreThoseEntered := by
  intro m mode st
  constructor
  · refine reachable_induction (P := fun p => ∃ samples, stateAfter m mode .N0 samples = some p) ⟨[], rfl⟩ ?_
    rintro p i t ⟨samples, hp⟩ ht
    exact ⟨samples ++ [i], stateAfter_concat hp ht⟩
  · rintro ⟨samples, h⟩
    exact stateAfter_reachable (N0_reachable m mode) h

end Sys2Proof.Machine
end

