-- ==== Sys2Proof/Proofs/Noninterference.lean ====
section
/-! SUPPORT. Noninterference: a change of registers that a command neither reads nor writes passes through it. -/

namespace Sys2Proof.Machine

/-- The change `before` of the state in front of a command leaves what the preamble reads, and appears as the change
`after` behind what the preamble and the defect answer (60_exceptions.md R222, R225). -/
structure PassesPreamble (before after : State → State) : Prop where
  cfg : ∀ s, (before s).cfg = s.cfg
  rom : ∀ s, (before s).rom = s.rom
  fault : ∀ s, (before s).fault = s.fault
  respond : ∀ s st d, (before s).respond st d = after (s.respond st d)
  raiseFault : ∀ s, (before s).raiseFault = after s.raiseFault

section
variable {before after : State → State} {s t : State}

theorem PassesPreamble.built (hp : PassesPreamble before after) (hb : s.built) : (before s).built :=
  (buildProblem_congr (hp.cfg s) (hp.rom s)).trans hb

/-- A change that passes the preamble and the body of a command passes the command. -/
theorem PassesPreamble.passes_exec {i : Instr} (hp : PassesPreamble before after)
    (hbody : s.accepts i.op → bodyOf i s = .next t → bodyOf i (before s) = .next (after t))
    (h : exec i s = .next t) : exec i (before s) = .next (after t) := by
  have hcfg := hp.cfg s
  have hfault := hp.fault s
  obtain ⟨hb, ⟨hf, rfl⟩ | ⟨hf, hl, rfl⟩ | ⟨hf, hl, ht⟩⟩ := exec_next h
  · rw [exec_latched (hp.built hb) (hfault.trans hf), hp.respond]
  · rw [exec_illegal (hp.built hb) (hfault.trans hf) (hcfg ▸ hl)]
    exact congrArg Host.Outcome.next (hp.respond s _ _)
  · rw [exec_accepts ⟨hp.built hb, hfault.trans hf, hcfg ▸ hl⟩]
    exact hbody ⟨hb, hf, hl⟩ ht

/-- A change that leaves `STATE` and `LAST` and passes the variant's writes passes the body of `UPDATE`. -/
theorem PassesPreamble.passes_updateBody {z a b : Bool} (hp : PassesPreamble before after)
    (hfst : (before s).fst = s.fst) (hlast : (before s).last = s.last)
    (hfinish : ∀ r n i, finishUpdate z r ((before s).setPhase n i) = after (finishUpdate z r (s.setPhase n i)))
    (ha : s.accepts .update) (h : updateBody z a b s = .next t) : updateBody z a b (before s) = .next (after t) := by
  obtain ⟨hb, -, hl⟩ := ha
  obtain ⟨c, hc, ht⟩ := updateBody_next hb hl h
  obtain ⟨c', hc', ht'⟩ := updateBody_cases (z := z) (a := a) (b := b) (hp.built hb) (hp.cfg s ▸ hl)
  obtain rfl : c = c' := by rwa [hp.cfg, hp.rom, hfst, hc, Option.some.injEq] at hc'
  rcases ht with ⟨ho, rfl⟩ | ⟨ho, rfl⟩ <;> rcases ht' with ⟨ho', h'⟩ | ⟨ho', h'⟩
  · rw [h', hp.raiseFault]
  · exact absurd ho ho'
  · exact absurd ho' ho
  · rw [h', hlast, hfinish]

/-- The body of `READ_PPC` reads `MODE` only. -/
theorem PassesPreamble.passes_readPpcBody (hp : PassesPreamble before after) (h : readPpcBody s = .next t) :
    readPpcBody (before s) = .next (after t) := by
  cases hn : s.cfg.mode.ppc with
  | none => simp [readPpcBody, hn] at h
  | some n =>
    rw [readPpcBody_eq hn] at h
    cases h
    rw [readPpcBody_eq (hp.cfg s ▸ hn), hp.respond]

end

/-! ### The response registers -/

/-- The response registers with other values in them. -/
def State.setResponse (s : State) (v : Bool) (st : BitVec 4) (d : Word) : State :=
  { s with respValid := v, respStatus := st, respData := d }

theorem setResponse_passesPreamble (v : Bool) (st : BitVec 4) (d : Word) :
    PassesPreamble (fun s => s.setResponse v st d) id :=
  ⟨fun _ => rfl, fun _ => rfl, fun _ => rfl, fun _ _ _ => rfl, fun _ => rfl⟩

/-- An update's response does not depend on the last one. -/
theorem finishUpdate_setResponse (z : Bool) (r : UpdateResult) (s : State) (v : Bool) (st : BitVec 4) (d : Word) :
    finishUpdate z r (s.setResponse v st d) = finishUpdate z r s := by
  unfold finishUpdate State.setResponse
  cases s.cfg.variant <;> rfl

/-- Every body writes all three response registers and reads none of them. -/
theorem bodyOf_setResponse {i : Instr} {s t : State} (v : Bool) (st : BitVec 4) (d : Word) (ha : s.accepts i.op)
    (h : bodyOf i s = .next t) : bodyOf i (s.setResponse v st d) = .next t := by
  cases i with
  | update z a b =>
    exact (setResponse_passesPreamble v st d).passes_updateBody rfl rfl
      (fun r n i => finishUpdate_setResponse z r (s.setPhase n i) v st d) ha h
  | reset u =>
    cases h
    simp [bodyOf, commandReset_eq, State.setResponse, State.respond]
  | readPpc u => exact (setResponse_passesPreamble v st d).passes_readPpcBody h
  | _ => exact h

theorem exec_setResponse_of_next {i : Instr} {s t : State} (v : Bool) (st : BitVec 4) (d : Word)
    (h : exec i s = .next t) : exec i (s.setResponse v st d) = .next t :=
  (setResponse_passesPreamble v st d).passes_exec (bodyOf_setResponse v st d) h

/-- No command reads the response registers (10_state.md R28, R32), and a machine that cannot be built is refused
whatever they hold. -/
theorem exec_setResponse (i : Instr) (s : State) (v : Bool) (st : BitVec 4) (d : Word) :
    exec i (s.setResponse v st d) = exec i s := by
  cases hb : s.buildProblem with
  | some r => rw [exec_refused hb, exec_refused (s := s.setResponse v st d) hb]
  | none =>
    obtain ⟨t, ht⟩ := exec_completes hb i
    rw [ht, exec_setResponse_of_next v st d ht]

/-! ### The registers a variant lacks -/

section
variable {i : Instr} {s t : State}

theorem setPhase_passesPreamble (f : FstState) (l : Sample) :
    PassesPreamble (fun s => s.setPhase f l) (fun s => s.setPhase f l) :=
  ⟨fun _ => rfl, fun _ => rfl, fun _ => rfl, fun _ _ _ => rfl, fun _ => rfl⟩

/-- In INDEX_ONLY, the one variant without a decoder, a body carries over any `STATE` and `LAST`: the bodies that use
them are illegal there. -/
theorem bodyOf_setPhase (hd : s.cfg.variant.hasDecoder = false) (f : FstState) (l : Sample) (ha : s.accepts i.op)
    (h : bodyOf i s = .next t) : bodyOf i (s.setPhase f l) = .next (t.setPhase f l) := by
  obtain ⟨-, -, hl⟩ := ha
  cases i with
  | update z a b => exact absurd (hd.symm.trans hl) Bool.false_ne_true
  | readPpc u => exact absurd (hd.symm.trans hl) Bool.false_ne_true
  | reset u =>
    cases h
    simp [bodyOf, commandReset_eq, State.setPhase, State.respond, hd]
  | _ => cases h; rfl

theorem exec_setPhase (hd : s.cfg.variant.hasDecoder = false) (f : FstState) (l : Sample) (h : exec i s = .next t) :
    exec i (s.setPhase f l) = .next (t.setPhase f l) :=
  (setPhase_passesPreamble f l).passes_exec (bodyOf_setPhase hd f l) h

theorem setCounter_passesPreamble (c : Word) :
    PassesPreamble (fun s => s.setCounter c) (fun s => s.setCounter c) :=
  ⟨fun _ => rfl, fun _ => rfl, fun _ => rfl, fun _ _ _ => rfl, fun _ => rfl⟩

theorem finishUpdate_setCounter (hc : s.cfg.variant.hasCounter = false) (z : Bool) (r : UpdateResult) (c : Word) :
    finishUpdate z r (s.setCounter c) = (finishUpdate z r s).setCounter c := by
  unfold finishUpdate
  rw [State.setCounter_cfg]
  cases hv : s.cfg.variant with
  | quadrature => rfl
  | indexOnly => rfl
  | incremental => simp [hv, Variant.hasCounter] at hc
  | indexedIncremental => simp [hv, Variant.hasCounter] at hc

/-- In QUADRATURE and INDEX_ONLY a body carries over any `COUNTER`. -/
theorem bodyOf_setCounter (hc : s.cfg.variant.hasCounter = false) (c : Word) (ha : s.accepts i.op)
    (h : bodyOf i s = .next t) : bodyOf i (s.setCounter c) = .next (t.setCounter c) := by
  have ⟨_, _, hl⟩ := ha
  cases i with
  | update z a b =>
    exact (setCounter_passesPreamble c).passes_updateBody rfl rfl
      (fun r n i => finishUpdate_setCounter (s := s.setPhase n i) hc z r c) ha h
  | setCounter u d => exact absurd (hc.symm.trans hl) Bool.false_ne_true
  | readCounter u => exact absurd (hc.symm.trans hl) Bool.false_ne_true
  | readPpc u => exact (setCounter_passesPreamble c).passes_readPpcBody h
  | reset u =>
    cases h
    simp [bodyOf, commandReset_eq, State.setCounter, State.respond, hc]
  | _ => cases h; rfl

theorem exec_setCounter (hc : s.cfg.variant.hasCounter = false) (c : Word) (h : exec i s = .next t) :
    exec i (s.setCounter c) = .next (t.setCounter c) :=
  (setCounter_passesPreamble c).passes_exec (bodyOf_setCounter hc c) h

theorem setIndex_passesPreamble (y p : Bool) :
    PassesPreamble (fun s => s.setIndex y p) (fun s => s.setIndex y p) :=
  ⟨fun _ => rfl, fun _ => rfl, fun _ => rfl, fun _ _ _ => rfl, fun _ => rfl⟩

theorem finishUpdate_setIndex (hi : s.cfg.variant.hasIndex = false) (z : Bool) (r : UpdateResult) (y p : Bool) :
    finishUpdate z r (s.setIndex y p) = (finishUpdate z r s).setIndex y p := by
  unfold finishUpdate
  rw [State.setIndex_cfg]
  cases hv : s.cfg.variant with
  | quadrature => rfl
  | incremental => rfl
  | indexedIncremental => simp [hv, Variant.hasIndex] at hi
  | indexOnly => rfl

/-- `INDEX_UPDATE` is legal in INDEX_ONLY alone, which has the index registers. -/
theorem legal_indexUpdate_hasIndex {v : Variant} (h : legal .indexUpdate v = true) : v.hasIndex = true := by
  cases v with
  | indexOnly => rfl
  | _ => cases h

/-- In QUADRATURE and INCREMENTAL a body carries over any `ZLAST` and `ZPRIMED`. -/
theorem bodyOf_setIndex (hi : s.cfg.variant.hasIndex = false) (y p : Bool) (ha : s.accepts i.op)
    (h : bodyOf i s = .next t) : bodyOf i (s.setIndex y p) = .next (t.setIndex y p) := by
  have ⟨_, _, hl⟩ := ha
  cases i with
  | update z a b =>
    exact (setIndex_passesPreamble y p).passes_updateBody rfl rfl
      (fun r n i => finishUpdate_setIndex (s := s.setPhase n i) hi z r y p) ha h
  | indexUpdate z u => exact absurd (hi.symm.trans (legal_indexUpdate_hasIndex hl)) Bool.false_ne_true
  | readPpc u => exact (setIndex_passesPreamble y p).passes_readPpcBody h
  | reset u =>
    cases h
    simp [bodyOf, commandReset_eq, State.setIndex, State.respond, hi]
  | _ => cases h; rfl

theorem exec_setIndex (hi : s.cfg.variant.hasIndex = false) (y p : Bool) (h : exec i s = .next t) :
    exec i (s.setIndex y p) = .next (t.setIndex y p) :=
  (setIndex_passesPreamble y p).passes_exec (bodyOf_setIndex hi y p) h

/-! A command that carries over every value of a register leaves the register as it is: its present value is one of
them. -/

theorem exec_keeps_phase (hd : s.cfg.variant.hasDecoder = false) (h : exec i s = .next t) :
    t.fst = s.fst ∧ t.last = s.last := by
  have ht : t = t.setPhase s.fst s.last := Host.Outcome.next.inj (h.symm.trans (exec_setPhase hd s.fst s.last h))
  exact ⟨(congrArg State.fst ht :), (congrArg State.last ht :)⟩

theorem exec_keeps_counter (hc : s.cfg.variant.hasCounter = false) (h : exec i s = .next t) :
    t.counter = s.counter := by
  have ht : t = t.setCounter s.counter := Host.Outcome.next.inj (h.symm.trans (exec_setCounter hc s.counter h))
  exact (congrArg State.counter ht :)

theorem exec_keeps_index (hi : s.cfg.variant.hasIndex = false) (h : exec i s = .next t) :
    t.zlast = s.zlast ∧ t.zprimed = s.zprimed := by
  have ht : t = t.setIndex s.zlast s.zprimed :=
    Host.Outcome.next.inj (h.symm.trans (exec_setIndex hi s.zlast s.zprimed h))
  exact ⟨(congrArg State.zlast ht :), (congrArg State.zprimed ht :)⟩

end

end Sys2Proof.Machine
end

