-- ==== Sys2Proof/Proofs/Reset.lean ====
section
/-! SUPPORT. The state just after reset: `RST` leads to it from every well-formed state, and it meets the invariants. -/

namespace Sys2Proof.Machine

/-- `RST` gives the registers of the variant their reset values; in a well-formed state the fields of the others hold
theirs already (10_state.md R33, log entry 7). -/
theorem rst_eq_afterRst {s : State} (h : s.wf) : s.rst = State.afterRst s.cfg s.rom s.inputs := by
  simp only [State.rst, State.afterRst, State.mk.injEq, true_and, and_true, ite_eq_left_iff, Bool.not_eq_true]
  exact ⟨fun hd => (h.noDecoder hd).1, fun hd => (h.noDecoder hd).2, h.noCounter, fun hi => (h.noIndex hi).1,
    fun hi => (h.noIndex hi).2⟩

variable {cfg : Config} {rom : Memory}

theorem afterRst_sound (hc : cfg.wf = true) (ht : tableWF rom cfg.mode = true) (inputs : List PortInput) :
    (State.afterRst cfg rom inputs).sound := by
  obtain ⟨hm, hw⟩ := Bool.and_eq_true_iff.mp hc
  have hmode : cfg.mode ≠ .code3 := by simpa [Config.modeLegal] using hm
  exact ⟨built_iff.mpr ⟨hmode, hw, ht⟩, N0_reachable rom cfg.mode, rfl⟩

theorem afterRst_wf (cfg : Config) (hr : Memory.wf rom = true) (inputs : List PortInput) :
    (State.afterRst cfg rom inputs).wf where
  rom := hr
  counter := wires_zero cfg
  respData := wires_zero cfg
  status := rfl
  latch := show 0x0#4 = Status.code .fault ↔ false = true by decide
  unprimed := fun _ => rfl
  noDecoder := fun _ => ⟨rfl, rfl⟩
  noCounter := fun _ => rfl
  noIndex := fun _ => ⟨rfl, rfl⟩

/-- `LAST` resets to the phase of `N0` (40_transducer.md R114). -/
theorem afterRst_phaseLocked (cfg : Config) (rom : Memory) (inputs : List PortInput) :
    (State.afterRst cfg rom inputs).phaseLocked := rfl

end Sys2Proof.Machine
end

