-- ==== Sys2Proof/Proofs/State.lean ====
section
/-! The obligations of 10_state.md. -/

namespace Sys2Proof.Machine

/-! ### Reset -/

/-- Settles O10. The first edge is `RST`, which leads to the state just after reset. -/
theorem resetStateHoldsTheResetValues : Obligations.ResetStateHoldsTheResetValues := by
  refine ⟨⟨rfl, rfl, rfl, rfl, rfl, rfl, rfl, rfl, rfl⟩, ?_⟩
  intro s p rest hb hw hi hp
  have hrst : s.rst = State.afterRst s.cfg s.rom s.inputs := rst_eq_afterRst hw
  calc step s = clockEdge p { s with inputs := rest } := by simp [step, State.pins, State.takeInput, hi]
    _ = .next { s.rst with inputs := rest } := clockEdge_rst (s := { s with inputs := rest }) hb hp
    _ = .next { State.afterRst s.cfg s.rom s.inputs with inputs := rest } := by rw [hrst]

/-- Settles O54, `State.reset` being the state just after reset of the standard configuration with the spec's tables. -/
theorem resetMeetsTheInvariants : Obligations.ResetMeetsTheInvariants := by
  have hreset : State.reset = State.afterRst Config.standard [] [] := rfl
  refine ⟨?_, fun cfg rom inputs hc ht hr =>
    ⟨afterRst_sound hc ht inputs, afterRst_wf cfg hr inputs, afterRst_phaseLocked cfg rom inputs⟩⟩
  have htable : tableWF [] Config.standard.mode = true := specTable_full_wf
  rw [hreset]
  exact ⟨afterRst_sound (by decide) htable [], afterRst_wf _ rfl [], rfl, rfl⟩

/-! ### The response -/

theorem finishUpdate_respValid (z : Bool) (r : UpdateResult) (s : State) : (finishUpdate z r s).respValid = true := by
  unfold finishUpdate
  cases s.cfg.variant <;> rfl

/-- Every command that answers a next state responds (10_state.md R32). -/
theorem exec_respValid {i : Instr} {s t : State} (h : exec i s = .next t) : t.respValid = true := by
  obtain ⟨hb, ⟨-, rfl⟩ | ⟨-, -, rfl⟩ | ⟨-, hl, hbody⟩⟩ := exec_next h
  · rfl
  · rfl
  · cases i with
    | update z a b =>
      obtain ⟨c, -, ⟨-, rfl⟩ | ⟨-, rfl⟩⟩ := updateBody_next hb hl hbody
      · rfl
      · exact finishUpdate_respValid z _ _
    | readPpc u =>
      obtain ⟨n, hn, -⟩ := ppc_exists (built_iff.mp hb).1
      cases (readPpcBody_eq hn).symm.trans hbody
      rfl
    | _ => cases hbody; rfl

/-- Settles O11, edge by edge: `RST` clears the response, a command writes it, an idle edge clears `RESP_VALID` alone. -/
theorem responseHoldsUntilTheNextCommand : Obligations.ResponseHoldsUntilTheNextCommand := by
  intro s t h
  rcases step_cases s with ⟨r, -, h'⟩ | ⟨-, hr, h'⟩ | ⟨-, hr, hc, h'⟩ | ⟨-, hr, hc, h'⟩ <;> rw [h] at h'
  · cases h'
  · cases h'
    simp [hr]
  · simp [hr, hc, exec_respValid h'.symm]
  · cases h'
    simp [hr, hc]

/-- Settles O35: every answer overwrites the response registers, and no part of a command reads them. -/
theorem responseRegistersAreNeverRead : Obligations.ResponseRegistersAreNeverRead :=
  exec_setResponse

/-! ### The registers a variant lacks -/

/-- Settles O34, one kind of register at a time: other values in it are carried over, so its own value is kept. -/
theorem absentRegistersAreNeitherReadNorWritten : Obligations.AbsentRegistersAreNeitherReadNorWritten := by
  intro i s t f l c z p h
  refine ⟨fun hd => ?_, fun hc => ⟨exec_keeps_counter hc h, exec_setCounter hc c h⟩, fun hi => ?_⟩
  · obtain ⟨hfst, hlast⟩ := exec_keeps_phase hd h
    exact ⟨hfst, hlast, exec_setPhase hd f l h⟩
  · obtain ⟨hzlast, hzprimed⟩ := exec_keeps_index hi h
    exact ⟨hzlast, hzprimed, exec_setIndex hi z p h⟩

end Sys2Proof.Machine
end

