-- ==== Sys2Proof/Proofs/Memory.lean ====
section
/-! The obligations of 20_memory.md. -/

namespace Sys2Proof.Machine

/-- Settles O30: no execution and no step writes the ROM or the configuration, and a cell is read from the ROM alone. -/
theorem romAndConfigurationNeverChange : Obligations.RomAndConfigurationNeverChange := by
  constructor
  · intro i s t h
    obtain ⟨hcfg, hrom, hinputs⟩ := exec_keeps h
    exact ⟨hrom, hcfg, hinputs, fun a => by rw [hrom]⟩
  · intro s t h
    obtain ⟨hcfg, hrom, hinputs⟩ := step_keeps h
    exact ⟨hrom, hcfg, hinputs, fun a => by rw [hrom]⟩

/-- The body of a reading or a reserved command is a response and nothing more (42_decoder.md R162, R164). -/
theorem bodyOf_read_eq_respond {i : Instr} {s t : State}
    (hi : i.op ∈ [Op.readCounter, .readPpc, .reserved110, .reserved111]) (hb : s.built) (h : bodyOf i s = .next t) :
    ∃ st d, t = s.respond st d := by
  cases i with
  | readCounter u => cases h; exact ⟨_, _, rfl⟩
  | readPpc u =>
    obtain ⟨n, hn, -⟩ := ppc_exists (built_iff.mp hb).1
    cases (readPpcBody_eq hn).symm.trans h
    exact ⟨_, _, rfl⟩
  | reserved110 u => cases h; exact ⟨_, _, rfl⟩
  | reserved111 u => cases h; exact ⟨_, _, rfl⟩
  | _ => simp [Instr.op] at hi

/-- A reading or a reserved command that answers a next state, latched, illegal or run, answers a response and nothing
more (20_memory.md R57, 60_exceptions.md R224). -/
theorem exec_read_eq_respond {i : Instr} {s t : State}
    (hi : i.op ∈ [Op.readCounter, .readPpc, .reserved110, .reserved111]) (h : exec i s = .next t) :
    ∃ st d, t = s.respond st d := by
  obtain ⟨hb, ⟨-, rfl⟩ | ⟨-, -, rfl⟩ | ⟨-, -, hbody⟩⟩ := exec_next h
  · exact ⟨_, _, rfl⟩
  · exact ⟨.illegalCommand, 0#128, rfl⟩
  · exact bodyOf_read_eq_respond hi hb hbody

/-- Settles O31: such a command only responds, and a response leaves every other field. -/
theorem readsChangeOnlyTheResponse : Obligations.ReadsChangeOnlyTheResponse := by
  intro i s t hi h
  obtain ⟨st, d, rfl⟩ := exec_read_eq_respond hi h
  simp

end Sys2Proof.Machine
end


-- ==== Sys2Proof/Proofs/Codec.lean ====
section
/-! SUPPORT. The decoder and the encoder field by field: what a word of each row decodes to, and what the fields of an
encoding are (30_encoding.md section 2). -/

namespace Sys2Proof

/-! ### The decoder, one equation per row of the opcode map -/

section
variable {c : Command}

theorem decode_update (h : Op.ofCode (c.cmd.extractLsb' 3 3) = .update) :
    decode c = .update (c.cmd.getLsbD 2) (c.cmd.getLsbD 1) (c.cmd.getLsbD 0) := by simp only [decode, h]

theorem decode_reset (h : Op.ofCode (c.cmd.extractLsb' 3 3) = .reset) :
    decode c = .reset (c.cmd.extractLsb' 0 3) := by simp only [decode, h]

theorem decode_setCounter (h : Op.ofCode (c.cmd.extractLsb' 3 3) = .setCounter) :
    decode c = .setCounter (c.cmd.extractLsb' 0 3) c.dataIn := by simp only [decode, h]

theorem decode_readCounter (h : Op.ofCode (c.cmd.extractLsb' 3 3) = .readCounter) :
    decode c = .readCounter (c.cmd.extractLsb' 0 3) := by simp only [decode, h]

theorem decode_readPpc (h : Op.ofCode (c.cmd.extractLsb' 3 3) = .readPpc) :
    decode c = .readPpc (c.cmd.extractLsb' 0 3) := by simp only [decode, h]

theorem decode_indexUpdate (h : Op.ofCode (c.cmd.extractLsb' 3 3) = .indexUpdate) :
    decode c = .indexUpdate (c.cmd.getLsbD 2) (c.cmd.extractLsb' 0 2) := by simp only [decode, h]

theorem decode_reserved110 (h : Op.ofCode (c.cmd.extractLsb' 3 3) = .reserved110) :
    decode c = .reserved110 (c.cmd.extractLsb' 0 3) := by simp only [decode, h]

theorem decode_reserved111 (h : Op.ofCode (c.cmd.extractLsb' 3 3) = .reserved111) :
    decode c = .reserved111 (c.cmd.extractLsb' 0 3) := by simp only [decode, h]

end

/-! ### The opcode field -/

theorem encode_opcode (i : Instr) : (encode i).cmd.extractLsb' 3 3 = i.op.code := by
  cases i with
  | update z a b => exact (Laws.EncodingInItsRow.update z a b).1
  | reset u => exact (Laws.EncodingInItsRow.reset u).1
  | setCounter u d => exact (Laws.EncodingInItsRow.setCounter u d).1
  | readCounter u => exact (Laws.EncodingInItsRow.readCounter u).1
  | readPpc u => exact (Laws.EncodingInItsRow.readPpc u).1
  | indexUpdate z u => exact (Laws.EncodingInItsRow.indexUpdate z u).1
  | reserved110 u => exact (Laws.EncodingInItsRow.reserved110 u).1
  | reserved111 u => exact (Laws.EncodingInItsRow.reserved111 u).1

/-- The row of an encoding is the instruction's (30_encoding.md R73). -/
theorem ofCode_encode (i : Instr) : Op.ofCode ((encode i).cmd.extractLsb' 3 3) = i.op := by
  rw [encode_opcode, Op.ofCode_code]

theorem ofCode_eq_iff {x : BitVec 3} {o : Op} : Op.ofCode x = o ↔ x = o.code :=
  ⟨fun h => by rw [← h, Op.code_ofCode], fun h => by rw [h, Op.ofCode_code]⟩

/-! ### A word put together from its fields -/

section
variable {w : BitVec 6} {o : Op}

theorem code_append_low (h : Op.ofCode (w.extractLsb' 3 3) = o) : o.code ++ w.extractLsb' 0 3 = w := by
  rw [← ofCode_eq_iff.mp h]
  exact (BitVec.extractLsb'_append_extractLsb'_eq_extractLsb' (start₁ := 0) (len₁ := 3) rfl).trans
    BitVec.extractLsb'_eq_self

theorem code_append_index_low (h : Op.ofCode (w.extractLsb' 3 3) = o) :
    o.code ++ BitVec.ofBool (w.getLsbD 2) ++ w.extractLsb' 0 2 = w := by
  have key : ∀ w : BitVec 6, w.extractLsb' 3 3 ++ BitVec.ofBool (w.getLsbD 2) ++ w.extractLsb' 0 2 = w := by decide
  rw [← ofCode_eq_iff.mp h]
  exact key w

theorem code_append_samples (h : Op.ofCode (w.extractLsb' 3 3) = o) :
    o.code ++ BitVec.ofBool (w.getLsbD 2) ++ BitVec.ofBool (w.getLsbD 1) ++ BitVec.ofBool (w.getLsbD 0) = w := by
  have key : ∀ w : BitVec 6, w.extractLsb' 3 3 ++ BitVec.ofBool (w.getLsbD 2) ++ BitVec.ofBool (w.getLsbD 1) ++
      BitVec.ofBool (w.getLsbD 0) = w := by decide
  rw [← ofCode_eq_iff.mp h]
  exact key w

end

/-! ### The fields of a word put together -/

theorem getLsbD_samples (x : BitVec 3) (z a b : Bool) :
    (x ++ BitVec.ofBool z ++ BitVec.ofBool a ++ BitVec.ofBool b).getLsbD 2 = z ∧
      (x ++ BitVec.ofBool z ++ BitVec.ofBool a ++ BitVec.ofBool b).getLsbD 1 = a ∧
      (x ++ BitVec.ofBool z ++ BitVec.ofBool a ++ BitVec.ofBool b).getLsbD 0 = b := by
  simp only [BitVec.getLsbD_append]
  simp

theorem getLsbD_index (x : BitVec 3) (z : Bool) (u : BitVec 2) :
    (x ++ BitVec.ofBool z ++ u).getLsbD 2 = z := by
  simp only [BitVec.getLsbD_append]
  simp

/-! ### The rows of the opcode map -/

/-- A word matches a row exactly when its opcode field is the row's (30_encoding.md R73). -/
theorem matches_eq_decide_op (w : BitVec 6) :
    ∀ r ∈ opcodeMap, r.matches w = decide (r.op = Op.ofCode (w.extractLsb' 3 3)) := by
  revert w; decide

/-- The opcode map has one row for each opcode. -/
theorem opcodeMap_filter_op (o : Op) : (opcodeMap.filter fun r => r.op = o).map OpcodeRow.op = [o] := by
  cases o <;> rfl

/-! ### The assembler -/

section
variable {c : Config} {a : Asm}

theorem assemble_of_wf (h : a.wf c = true) : a.assemble c = some (a.command c) := if_pos h

theorem assemble_of_not_wf (h : a.wf c = false) : a.assemble c = none := if_neg (by simp [h])

theorem inRange_iff {v : Int} : c.inRange v = true ↔ c.counterMin ≤ v ∧ v ≤ c.counterMax := by
  simp [Config.inRange]

end

/-- A small number is stored as it is written on the wires. -/
theorem counterPattern_natCast {c : Config} (h : c.widthLegal = true) {n : Nat} (hn : n < 16) :
    c.counterPattern n = BitVec.ofNat 128 n := by
  obtain ⟨-, hw⟩ := Machine.width_pos h
  calc c.counterPattern n = c.wires (BitVec.ofNat 128 n) := by
        rw [Config.counterPattern, Config.wires, BitVec.ofInt_natCast, BitVec.setWidth_ofNat_of_le hw]
    _ = BitVec.ofNat 128 n := Machine.wires_ofNat_small h hn

/-- The numbers 0 to 7 are in range at every legal width (00_scope.md R10, R11). -/
theorem inRange_natCast {c : Config} (h : c.widthLegal = true) {n : Nat} (hn : n < 8) : c.inRange n = true := by
  obtain ⟨hw, -⟩ := Machine.width_pos h
  have h8 : (2 : Int) ^ 3 ≤ 2 ^ (c.counterWidth - 1) := pow_le_pow_right₀ (by decide) (by omega)
  have h16 : (2 : Int) ^ 4 ≤ 2 ^ c.counterWidth := pow_le_pow_right₀ (by decide) hw
  rw [inRange_iff, Config.counterMin, Config.counterMax]
  split <;> omega

theorem widthLegal_iff {c : Config} : c.widthLegal = true ↔ 4 ≤ c.counterWidth ∧ c.counterWidth ≤ 128 := by
  simp [Config.widthLegal]

theorem widthLegal_of_wf {c : Config} (h : c.wf = true) : c.widthLegal = true := (Bool.and_eq_true_iff.mp h).2

end Sys2Proof
end

