-- ==== Sys2Proof/Proofs/Registers.lean ====
section
/-! SUPPORT. Well-formed registers: what each update of the state keeps, and that a response to well-formed registers
makes a well-formed state. -/

namespace Sys2Proof.Machine

/-- The part of `State.wf` that does not speak of the response: what a command's writes keep until it responds. -/
structure State.regsWf (s : State) : Prop where
  rom : Memory.wf s.rom = true
  counter : s.cfg.wires s.counter = s.counter
  unprimed : s.zprimed = false → s.zlast = false
  noDecoder : s.cfg.variant.hasDecoder = false → s.fst = .N0 ∧ s.last = 0b11#2
  noCounter : s.cfg.variant.hasCounter = false → s.counter = 0#128
  noIndex : s.cfg.variant.hasIndex = false → s.zlast = false ∧ s.zprimed = false

theorem State.wf.regsWf {s : State} (h : s.wf) : s.regsWf :=
  ⟨h.rom, h.counter, h.unprimed, h.noDecoder, h.noCounter, h.noIndex⟩

/-- No status has a reserved code (30_encoding.md R86). -/
theorem statusReserved_code (st : Status) : statusReserved st.code = false := by
  cases st with
  | err e => cases e <;> rfl
  | _ => rfl

/-- The code 0xF is that of the latched fault alone (60_exceptions.md R222). -/
theorem code_eq_fault_iff {st : Status} : st.code = Status.code .fault ↔ st = .fault := by
  cases st with
  | err e => cases e <;> decide
  | _ => decide

/-- An update's result is no fault (42_decoder.md R151). -/
theorem UpdateResult.status_ne_fault (r : UpdateResult) : r.status ≠ .fault := by
  rcases r with (_ | _ | _) | _ <;> nofun

theorem wires_edgeData {c : Config} (h : c.widthLegal = true) (e : Bool) : c.wires (edgeData e) = edgeData e := by
  cases e with
  | false => exact wires_zero c
  | true => exact wires_ofNat_small h (n := 1) (by decide)

namespace State.regsWf

variable {s : State}

/-! ### The updates -/

theorem setPhase (h : s.regsWf) (hd : s.cfg.variant.hasDecoder = true) (f : FstState) (l : Sample) :
    (s.setPhase f l).regsWf :=
  { h with noDecoder := fun hn => absurd (hn.symm.trans hd) Bool.false_ne_true }

theorem setCounter (h : s.regsWf) (hc : s.cfg.variant.hasCounter = true) {c : Word} (hw : s.cfg.wires c = c) :
    (s.setCounter c).regsWf :=
  { h with
    counter := hw
    noCounter := fun hn => absurd (hn.symm.trans hc) Bool.false_ne_true }

theorem setIndex (h : s.regsWf) (hi : s.cfg.variant.hasIndex = true) {z p : Bool} (hz : p = false → z = false) :
    (s.setIndex z p).regsWf :=
  { h with
    unprimed := hz
    noIndex := fun hn => absurd (hn.symm.trans hi) Bool.false_ne_true }

theorem evaluateIndex (h : s.regsWf) (hi : s.cfg.variant.hasIndex = true) (z : Bool) : (s.evaluateIndex z).regsWf :=
  h.setIndex hi (p := true) nofun

theorem iReset (h : s.regsWf) (hi : s.cfg.variant.hasIndex = true) : s.iReset.regsWf :=
  h.setIndex hi (p := false) fun _ => rfl

theorem qReset (h : s.regsWf) (hd : s.cfg.variant.hasDecoder = true) : s.qReset.regsWf :=
  (h.setPhase hd .N0 s.last).setPhase hd .N0 0b11#2

theorem commandReset (h : s.regsWf) : s.commandReset.regsWf := by
  unfold State.commandReset
  cases hv : s.cfg.variant with
  | quadrature => exact h.qReset (congrArg Variant.hasDecoder hv)
  | incremental =>
    exact (h.qReset (congrArg Variant.hasDecoder hv)).setCounter (congrArg Variant.hasCounter hv) (wires_zero _)
  | indexedIncremental =>
    exact ((h.qReset (congrArg Variant.hasDecoder hv)).setCounter (congrArg Variant.hasCounter hv)
      (wires_zero _)).iReset (congrArg Variant.hasIndex hv)
  | indexOnly => exact h.iReset (congrArg Variant.hasIndex hv)

/-! ### The response -/

/-- A response makes the state well formed if its data lies on the wires and its status is the fault exactly while the
latch is set. -/
theorem respond (h : s.regsWf) {st : Status} {d : Word} (hd : s.cfg.wires d = d)
    (hf : st = .fault ↔ s.fault = true) : (s.respond st d).wf :=
  { h with
    respData := hd
    status := statusReserved_code st
    latch := code_eq_fault_iff.trans hf }

/-- The response of a command that ran: the latch is clear. -/
theorem respond_clear (h : s.regsWf) (hf : s.fault = false) {st : Status} (hst : st ≠ .fault) {d : Word}
    (hd : s.cfg.wires d = d) : (s.respond st d).wf :=
  h.respond hd ⟨fun h' => absurd h' hst, fun h' => absurd (hf.symm.trans h') Bool.false_ne_true⟩

theorem respond_ok (h : s.regsWf) (hf : s.fault = false) {d : Word} (hd : s.cfg.wires d = d) :
    (s.respond .ok d).wf :=
  h.respond_clear (st := .ok) hf nofun hd

theorem respondIllegal (h : s.regsWf) (hf : s.fault = false) : s.respondIllegal.wf :=
  h.respond_clear (st := .illegalCommand) hf nofun (wires_zero _)

theorem raiseFault (h : s.regsWf) : s.raiseFault.wf :=
  respond (s := s.setFault) { h with } (wires_zero _) (iff_of_true rfl rfl)

/-! ### The commands -/

theorem finishUpdate (h : s.regsWf) (hf : s.fault = false) (z : Bool) (r : UpdateResult) :
    (finishUpdate z r s).wf := by
  have hst := r.status_ne_fault
  have hcount := wires_countResult s.cfg h.counter r
  unfold Machine.finishUpdate
  cases hv : s.cfg.variant with
  | quadrature => exact h.respond_clear hf hst (wires_zero _)
  | incremental =>
    exact (h.setCounter (congrArg Variant.hasCounter hv) hcount).respond_clear hf hst (wires_zero _)
  | indexedIncremental =>
    have hw : s.cfg.wires (if indexEdge s z then 0#128 else countResult s.cfg s.counter r) =
        if indexEdge s z then 0#128 else countResult s.cfg s.counter r := by
      split
      · exact wires_zero _
      · exact hcount
    exact ((h.setCounter (congrArg Variant.hasCounter hv) hw).evaluateIndex (congrArg Variant.hasIndex hv)
      z).respond_clear hf hst (wires_zero _)
  | indexOnly => exact h.respondIllegal hf

/-- The body of a command that runs leaves a well-formed state. -/
theorem bodyOf {i : Instr} {t : State} (h : s.regsWf) (ha : s.accepts i.op) (ht : bodyOf i s = .next t) : t.wf := by
  obtain ⟨hb, hf, hl⟩ := ha
  obtain ⟨hmode, hwidth, -⟩ := built_iff.mp hb
  cases i with
  | update z a b =>
    obtain ⟨c, -, ⟨-, rfl⟩ | ⟨-, rfl⟩⟩ := updateBody_next hb hl ht
    · exact h.raiseFault
    · exact (h.setPhase hl c.next (sample a b)).finishUpdate hf z _
  | reset u =>
    cases ht
    have hf' : s.commandReset.fault = false := by rw [commandReset_eq]; exact hf
    exact h.commandReset.respond_ok hf' (wires_zero _)
  | setCounter u d => cases ht; exact (h.setCounter hl (wires_wires _ d)).respond_ok hf (wires_zero _)
  | readCounter u => cases ht; exact h.respond_ok hf (wires_wires _ _)
  | readPpc u =>
    obtain ⟨n, hn, hlt⟩ := ppc_exists hmode
    cases (readPpcBody_eq hn).symm.trans ht
    exact h.respond_ok hf (wires_ofNat_small hwidth hlt)
  | indexUpdate z u =>
    cases ht
    exact (h.evaluateIndex (legal_indexUpdate_hasIndex hl) z).respond_ok hf (wires_edgeData hwidth _)
  | reserved110 u => cases ht; exact h.respondIllegal hf
  | reserved111 u => cases ht; exact h.respondIllegal hf

end State.regsWf

/-- Every execution keeps the registers well formed: what the preamble answers, and what the bodies leave. -/
theorem exec_keeps_wf {i : Instr} {s t : State} (h : s.wf) (ht : exec i s = .next t) : t.wf := by
  obtain ⟨hb, ⟨hf, rfl⟩ | ⟨hf, -, rfl⟩ | ⟨hf, hl, hbody⟩⟩ := exec_next ht
  · exact h.regsWf.respond (wires_zero _) (iff_of_true rfl hf)
  · exact h.regsWf.respondIllegal hf
  · exact h.regsWf.bodyOf ⟨hb, hf, hl⟩ hbody

/-! ### The edge -/

theorem takeInput_wf {s : State} (h : s.wf) : s.takeInput.wf := { h with }

theorem idle_wf {s : State} (h : s.wf) : s.idle.wf := { h with }

theorem rst_wf {s : State} (h : s.wf) : s.rst.wf := by
  rw [rst_eq_afterRst h]
  exact afterRst_wf s.cfg h.rom s.inputs

end Sys2Proof.Machine
end

