-- ==== Sys2Proof/Proofs/Encoding.lean ====
section
/-! The obligations of 30_encoding.md. -/

namespace Sys2Proof.Machine

/-! ### Words and instructions -/

/-- Settles O1: an encoding lies in its instruction's row, and the row's fields are the operands that were put into the
word. -/
theorem decodeOfEncodeIsTheInstruction : Obligations.DecodeOfEncodeIsTheInstruction := by
  intro i
  have hrow := ofCode_encode i
  cases i with
  | update z a b =>
    rw [decode_update hrow]
    simp only [encode, getLsbD_samples]
  | reset u => rw [decode_reset hrow]; simp only [encode, BitVec.extractLsb'_append_eq_right]
  | setCounter u d => rw [decode_setCounter hrow]; simp only [encode, BitVec.extractLsb'_append_eq_right]
  | readCounter u => rw [decode_readCounter hrow]; simp only [encode, BitVec.extractLsb'_append_eq_right]
  | readPpc u => rw [decode_readPpc hrow]; simp only [encode, BitVec.extractLsb'_append_eq_right]
  | indexUpdate z u =>
    rw [decode_indexUpdate hrow]
    simp only [encode, getLsbD_index, BitVec.extractLsb'_append_eq_right]
  | reserved110 u => rw [decode_reserved110 hrow]; simp only [encode, BitVec.extractLsb'_append_eq_right]
  | reserved111 u => rw [decode_reserved111 hrow]; simp only [encode, BitVec.extractLsb'_append_eq_right]

/-- Settles O2: the decoder keeps every field of the word, so the encoder puts the same word together; `DATA_IN` is kept
in the row that has it as an operand. -/
theorem encodeOfDecodeIsTheWord : Obligations.EncodeOfDecodeIsTheWord := by
  intro c
  rw [decode_op]
  cases h : Op.ofCode (c.cmd.extractLsb' 3 3) with
  | update => rw [decode_update h]; exact ⟨code_append_samples h, nofun⟩
  | reset => rw [decode_reset h]; exact ⟨code_append_low h, nofun⟩
  | setCounter =>
    rw [decode_setCounter h]
    exact ⟨code_append_low h, fun _ => congrArg (Command.mk · c.dataIn) (code_append_low h)⟩
  | readCounter => rw [decode_readCounter h]; exact ⟨code_append_low h, nofun⟩
  | readPpc => rw [decode_readPpc h]; exact ⟨code_append_low h, nofun⟩
  | indexUpdate => rw [decode_indexUpdate h]; exact ⟨code_append_index_low h, nofun⟩
  | reserved110 => rw [decode_reserved110 h]; exact ⟨code_append_low h, nofun⟩
  | reserved111 => rw [decode_reserved111 h]; exact ⟨code_append_low h, nofun⟩

/-- No variant executes the reserved opcodes, and every other opcode has a variant (30_encoding.md R78). -/
theorem legal_nowhere_iff {o : Op} : (∀ v, legal o v = false) ↔ o = .reserved110 ∨ o = .reserved111 := by
  cases o with
  | update => exact iff_of_false (fun h => nomatch h .quadrature) (by decide)
  | reset => exact iff_of_false (fun h => nomatch h .quadrature) (by decide)
  | setCounter => exact iff_of_false (fun h => nomatch h .incremental) (by decide)
  | readCounter => exact iff_of_false (fun h => nomatch h .incremental) (by decide)
  | readPpc => exact iff_of_false (fun h => nomatch h .quadrature) (by decide)
  | indexUpdate => exact iff_of_false (fun h => nomatch h .indexOnly) (by decide)
  | reserved110 => exact iff_of_true (fun _ => rfl) (.inl rfl)
  | reserved111 => exact iff_of_true (fun _ => rfl) (.inr rfl)

/-- Settles O3: the matching row is the one of the word's opcode field. -/
theorem everyWordIsExactlyOneCommand : Obligations.EveryWordIsExactlyOneCommand := by
  intro c
  rw [decode_op, legal_nowhere_iff, ofCode_eq_iff, ofCode_eq_iff]
  refine ⟨?_, Iff.rfl⟩
  rw [List.filter_congr (matches_eq_decide_op c.cmd), opcodeMap_filter_op]

/-- Settles O4: every statement of the rule is well formed in every legal configuration, 5 being in range at each width;
the words are the assembler's own, and they are decoded by evaluation. -/
theorem encodingExamplesDecode : Obligations.EncodingExamplesDecode := by
  intro c hc
  have hw : c.widthLegal = true := widthLegal_of_wf hc
  have hset : (Asm.setCounter 5).assemble c = some ⟨0x10#6, 5#128⟩ := by
    rw [assemble_of_wf (a := .setCounter 5) (inRange_natCast (n := 5) hw (by decide)), Asm.command]
    exact congrArg (fun d => some (Command.mk 0x10#6 d)) (counterPattern_natCast (n := 5) hw (by decide))
  exact ⟨rfl, rfl, rfl, rfl, rfl, rfl, rfl, rfl, rfl, rfl, hset, rfl, rfl, rfl, rfl, rfl, rfl, rfl, rfl⟩

/-- Settles O5: the ignored bits of each encoding are those the assembler writes, and the operand in range reads back
from its pattern. -/
theorem assemblerWritesItsCommand : Obligations.AssemblerWritesItsCommand := by
  intro c hc
  have hw : c.widthLegal = true := widthLegal_of_wf hc
  have hset : ∀ v, c.counterMin ≤ v → v ≤ c.counterMax → ∃ d,
      (Asm.setCounter v).assemble c = some (encode (.setCounter 0#3 d)) ∧ c.wires d = d ∧ c.counterValue d = v :=
    fun v hlo hhi => ⟨c.counterPattern v, assemble_of_wf (inRange_iff.mpr ⟨hlo, hhi⟩), wires_counterPattern c v,
      counterValue_counterPattern hw hlo hhi⟩
  have hout : ∀ v, v < c.counterMin ∨ c.counterMax < v → (Asm.setCounter v).assemble c = none := by
    intro v hv
    refine assemble_of_not_wf (Bool.eq_false_iff.mpr fun h => ?_)
    obtain ⟨hlo, hhi⟩ := inRange_iff.mp h
    omega
  refine ⟨fun _ _ => rfl, fun _ _ _ => rfl, rfl, hset, hout, rfl, rfl, ?_, fun _ => rfl, rfl, rfl⟩
  intro z
  cases z <;> rfl

/-! ### Ignored bits -/

/-- Two commands of one row whose bodies do the same are executed alike. -/
theorem exec_congr {i j : Instr} {s : State} (hop : i.op = j.op) (hbody : bodyOf i s = bodyOf j s) :
    exec i s = exec j s := by
  rw [exec_eq_command, exec_eq_command, hop, command, command, hbody]

/-- `UPDATE` uses z in INDEXED_INCREMENTAL only (30_encoding.md R77). -/
theorem updateBody_congr {s : State} {z z' : Bool} (h : s.cfg.variant = .indexedIncremental → z = z') (a b : Bool) :
    updateBody z a b s = updateBody z' a b s := by
  unfold updateBody
  cases hv : s.cfg.variant with
  | indexedIncremental => rw [h hv]
  | _ => rfl

/-- Settles O6, row by row: the body receives the bits its row uses, and none of the others. -/
theorem ignoredBitsHaveNoEffect : Obligations.IgnoredBitsHaveNoEffect := by
  rintro s c d ⟨hcode, hupdate, hindex, hset⟩
  have hop : (decode c).op = (decode d).op := by rw [decode_op, decode_op, hcode]
  refine exec_congr hop ?_
  cases hc : Op.ofCode (c.cmd.extractLsb' 3 3) with
  | update =>
    have hd := hcode ▸ hc
    obtain ⟨hab, hz⟩ := hupdate (ofCode_eq_iff.mp hc)
    have ha : c.cmd.getLsbD 1 = d.cmd.getLsbD 1 := by simpa using congrArg (BitVec.getLsbD · 1) hab
    have hb : c.cmd.getLsbD 0 = d.cmd.getLsbD 0 := by simpa using congrArg (BitVec.getLsbD · 0) hab
    rw [decode_update hc, decode_update hd, ha, hb]
    exact updateBody_congr hz _ _
  | reset => rw [decode_reset hc, decode_reset (hcode ▸ hc)]; rfl
  | setCounter =>
    rw [decode_setCounter hc, decode_setCounter (hcode ▸ hc), hset (ofCode_eq_iff.mp hc)]
    rfl
  | readCounter => rw [decode_readCounter hc, decode_readCounter (hcode ▸ hc)]; rfl
  | readPpc => rw [decode_readPpc hc, decode_readPpc (hcode ▸ hc)]; rfl
  | indexUpdate =>
    rw [decode_indexUpdate hc, decode_indexUpdate (hcode ▸ hc), hindex (ofCode_eq_iff.mp hc)]
    rfl
  | reserved110 => rw [decode_reserved110 hc, decode_reserved110 (hcode ▸ hc)]; rfl
  | reserved111 => rw [decode_reserved111 hc, decode_reserved111 (hcode ▸ hc)]; rfl

/-! ### The port -/

/-- A step with an input to take is the edge with that input on the pins. -/
theorem step_eq_clockEdge {s : State} {p : PortInput} {rest : List PortInput} (h : s.inputs = p :: rest) :
    step s = clockEdge p { s with inputs := rest } := by
  simp [step, State.pins, State.takeInput, h]

/-- Settles O7: the edge is the one of the next input, which accepts a command. -/
theorem stepRunsTheDecodedCommand : Obligations.StepRunsTheDecodedCommand := by
  intro s p rest hb hi hr hc
  rw [step_eq_clockEdge hi]
  exact clockEdge_command (s := { s with inputs := rest }) hb hr hc

/-- Settles O8: with no input left the pins are idle, and there is none to use up. -/
theorem idleEdgeChangesOnlyRespValid : Obligations.IdleEdgeChangesOnlyRespValid := by
  intro s hb
  constructor
  · intro p rest hi hr hc
    rw [step_eq_clockEdge hi]
    exact clockEdge_idle (s := { s with inputs := rest }) hb hr hc
  · intro hi
    have hpins : s.pins = PortInput.none := by rw [State.pins, hi]; rfl
    have htake : s.takeInput = s := by rw [State.takeInput, hi, List.tail_nil, ← hi]
    rw [step, hpins, htake]
    exact clockEdge_idle hb rfl rfl

/-! ### Configurations -/

theorem step_refused {s : State} {r : Refusal} (h : s.buildProblem = some r) : step s = .refused r := by
  simp [step, clockEdge, h]

/-- Settles O12: the mode is the first of the refusals, which come before anything a command or an edge does. -/
theorem modeThreeIsRefused : Obligations.ModeThreeIsRefused := by
  refine ⟨rfl, rfl, rfl, rfl, fun s i h => ?_⟩
  have hb : s.buildProblem = some .modeNotLegal := by simp [State.buildProblem, Config.modeLegal, h]
  exact ⟨exec_refused hb, step_refused hb⟩

/-- Settles O13. A built machine completes every step and every command; of another the build problem is the answer. -/
theorem onlyUnbuildableMachinesStop : Obligations.OnlyUnbuildableMachinesStop := by
  intro s
  refine ⟨?_, fun hb => ⟨step_completes hb, exec_completes hb⟩, fun hb => ?_⟩
  · rw [built_iff, widthLegal_iff, and_assoc]
  · obtain ⟨r, hr⟩ := Option.ne_none_iff_exists'.mp hb
    exact ⟨⟨r, step_refused hr⟩, fun i => ⟨r, exec_refused hr⟩⟩

/-! ### Legality -/

/-- Settles O17, cell by cell of the table. -/
theorem legalityTable : Obligations.LegalityTable := by
  intro op v
  cases op <;> cases v <;> decide

/-! ### The registers -/

/-- Settles O52, edge by edge: `RST` restores the reset values, every command keeps the registers well formed, an idle
edge writes `RESP_VALID` alone. -/
theorem registersStayWellFormed : Obligations.RegistersStayWellFormed := by
  intro s t _ hw h
  have hw' : s.takeInput.wf := takeInput_wf hw
  rcases step_cases s with ⟨r, -, h'⟩ | ⟨-, -, h'⟩ | ⟨-, -, -, h'⟩ | ⟨-, -, -, h'⟩ <;> rw [h] at h'
  · cases h'
  · cases h'; exact rst_wf hw'
  · exact exec_keeps_wf hw' h'.symm
  · cases h'; exact idle_wf hw'

end Sys2Proof.Machine
end

