-- ==== Sys2Proof/Proofs/Soundness.lean ====
section
/-! SUPPORT. Sound states: what an edge does to `STATE` and `LAST` there, that it leaves the state sound, and what an
`UPDATE` answers. -/

namespace Sys2Proof.Machine

/-! ### The moves of the phase -/

/-- The moves of the registers `STATE` and `LAST` that a table allows: neither is written, both are reset
(42_decoder.md R155), or both follow one input (40_transducer.md R110, 41_validator.md R130). -/
inductive PhaseMove (m : Memory) (mode : Mode) (st : FstState) (last : Sample) : FstState → Sample → Prop where
  | hold : PhaseMove m mode st last st last
  | reset : PhaseMove m mode st last .N0 0b11#2
  | take {i : Sample} {c : Transition} (h : transition m mode st i = some c) : PhaseMove m mode st last c.next i

/-- The reachable states are closed under the moves (40_transducer.md R113). -/
theorem PhaseMove.next_mem_reachable {m : Memory} {mode : Mode} {st st' : FstState} {last last' : Sample}
    (h : PhaseMove m mode st last st' last') (hst : st ∈ reachable m mode) : st' ∈ reachable m mode := by
  cases h with
  | hold => exact hst
  | reset => exact N0_reachable m mode
  | take hc => exact next_reachable hst hc

variable {s t : State}

/-- A reset of the registers the variant has is a move in every variant: INDEX_ONLY keeps the two fields. -/
theorem PhaseMove.resetIf {m : Memory} {mode : Mode} {st : FstState} {last : Sample} (hasDecoder : Bool) :
    PhaseMove m mode st last (if hasDecoder then .N0 else st) (if hasDecoder then 0b11#2 else last) := by
  cases hasDecoder with
  | true => exact .reset
  | false => exact .hold

/-- On a sound machine every command leaves the latch clear and moves the phase along the table. -/
theorem exec_phaseMove {i : Instr} (hs : s.sound) (h : exec i s = .next t) :
    t.fault = false ∧ PhaseMove s.rom s.cfg.mode s.fst s.last t.fst t.last := by
  obtain ⟨hb, ho, hf⟩ := hs
  obtain ⟨-, ⟨hf', -⟩ | ⟨-, -, rfl⟩ | ⟨-, hl, hbody⟩⟩ := exec_next h
  · exact absurd (hf.symm.trans hf') Bool.false_ne_true
  · exact ⟨hf, .hold⟩
  · cases i with
    | update z a b =>
      obtain ⟨c, hc, ⟨hsent, -⟩ | ⟨-, rfl⟩⟩ := updateBody_next hb hl hbody
      · exact absurd hsent (tableWF_noSentinel (built_iff.mp hb).2.2 ho hc)
      · simpa [hf] using PhaseMove.take hc
    | reset u =>
      cases hbody
      rw [commandReset_eq]
      exact ⟨hf, .resetIf _⟩
    | readPpc u =>
      obtain ⟨n, hn, -⟩ := ppc_exists (built_iff.mp hb).1
      cases (readPpcBody_eq hn).symm.trans hbody
      exact ⟨hf, .hold⟩
    | _ => cases hbody; exact ⟨hf, .hold⟩

/-- On a sound machine every edge leaves the latch clear and moves the phase along the table. -/
theorem step_phaseMove (hs : s.sound) (h : step s = .next t) :
    t.fault = false ∧ PhaseMove s.rom s.cfg.mode s.fst s.last t.fst t.last := by
  rcases step_cases s with ⟨r, -, h'⟩ | ⟨-, -, h'⟩ | ⟨-, -, -, h'⟩ | ⟨-, -, -, h'⟩ <;> rw [h] at h'
  · cases h'
  · cases h'; exact ⟨rfl, .resetIf _⟩
  · exact exec_phaseMove (s := s.takeInput) hs h'.symm
  · cases h'; exact ⟨hs.2.2, .hold⟩

/-- Every edge keeps a machine sound. -/
theorem step_keeps_sound (hs : s.sound) (h : step s = .next t) : t.sound := by
  obtain ⟨hcfg, hrom, -⟩ := step_keeps h
  obtain ⟨hf, hmove⟩ := step_phaseMove hs h
  have hreach : t.fst ∈ reachable s.rom s.cfg.mode := hmove.next_mem_reachable hs.2.1
  exact ⟨step_built hs.1 h, by rwa [State.onTable, hcfg, hrom], hf⟩

/-! ### The answer of an update -/

/-- An `UPDATE` that runs and whose cell is no sentinel takes the cell and finishes by variant (42_decoder.md R150,
R165). -/
theorem exec_update_eq {z a b : Bool} {c : Transition} (ha : s.accepts .update)
    (hc : transition s.rom s.cfg.mode s.fst (sample a b) = some c) (ho : c.out ≠ .errorSentinel) :
    exec (.update z a b) s = .next (finishUpdate z (resolve (validate s.last (sample a b)) c.out.movement)
      (s.setPhase c.next (sample a b))) := by
  rw [exec_accepts (i := .update z a b) ha]
  obtain ⟨c', hc', ⟨ho', -⟩ | ⟨-, h⟩⟩ := updateBody_cases (z := z) (a := a) (b := b) ha.1 ha.2.2 <;>
    cases hc.symm.trans hc'
  · exact absurd ho' ho
  · exact h

/-- A sound machine reads a cell that is no sentinel, whatever the input (40_transducer.md R102, R113). -/
theorem sound_transition (hs : s.sound) (i : Sample) :
    ∃ c, transition s.rom s.cfg.mode s.fst i = some c ∧ c.out ≠ .errorSentinel := by
  obtain ⟨hmode, -, hwf⟩ := built_iff.mp hs.1
  obtain ⟨c, hc⟩ := transition_exists s.rom hmode s.fst i
  exact ⟨c, hc, tableWF_noSentinel hwf hs.2.1 hc⟩

/-- The status of an update's result is not the fault's (42_decoder.md R151). -/
theorem UpdateResult.code_status_ne_fault (r : UpdateResult) : r.status.code ≠ 0xF#4 :=
  fun h => r.status_ne_fault (code_eq_fault_iff.mp h)

/-! ### The table of the statuses, row by row -/

section
variable {last i : Sample} {o : Output}

theorem tableStatus_diagonal (h : hamming last i = 2) (ho : o ≠ .errorSentinel) :
    tableStatus last i o = 0x4#4 ||| last.setWidth 4 := by
  simp [tableStatus, h, ho]

theorem tableStatus_forward (h : hamming last i ≠ 2) : tableStatus last i .forward = 0x1#4 := by
  simp [tableStatus, h]

theorem tableStatus_reverse (h : hamming last i ≠ 2) : tableStatus last i .reverse = 0x2#4 := by
  simp [tableStatus, h]

theorem tableStatus_neutral (h : hamming last i ≠ 2) : tableStatus last i .neutral = 0x0#4 := by
  simp [tableStatus, h]

end

/-! ### Distances between phases -/

theorem hamming_self (p : Sample) : hamming p p = 0 := by revert p; decide

theorem hamming_fwdPhase (p : Sample) : hamming p (fwdPhase p) = 1 := by revert p; decide

theorem hamming_revPhase (p : Sample) : hamming p (revPhase p) = 1 := by revert p; decide

/-- Two quarters forward are the diagonal (00_scope.md R19). -/
theorem hamming_fwdPhase_fwdPhase (p : Sample) : hamming p (fwdPhase (fwdPhase p)) = 2 := by revert p; decide

/-- Three quarters forward are one backward (40_transducer.md R119). -/
theorem fwdPhase_fwdPhase_fwdPhase (p : Sample) : fwdPhase (fwdPhase (fwdPhase p)) = revPhase p := by revert p; decide

/-- Repeating the last sample is no diagonal jump (41_validator.md R130). -/
theorem validate_self (p : Sample) : validate p p = none := by simp [validate, hamming_self]

end Sys2Proof.Machine
end

