-- ==== Sys2Proof/Proofs/Transducer.lean ====
section
/-! The obligations of 40_transducer.md. -/

namespace Sys2Proof.Machine

/-! ### Sound states -/

/-- Settles O51: a built machine completes every step, and the step's move of the phase stays among the reachable
states. -/
theorem soundStatesRunForever : Obligations.SoundStatesRunForever := by
  intro s hs
  obtain ⟨t, ht⟩ := step_completes hs.1
  exact ⟨t, ht, step_keeps_sound hs ht⟩

/-- Settles O23: the cell of a reachable state is no sentinel, so the update takes it and answers its result. -/
theorem updateCompletesFromSoundStates : Obligations.UpdateCompletesFromSoundStates := by
  intro z a b s hs hv
  obtain ⟨c, hc, ho⟩ := sound_transition hs (sample a b)
  obtain ⟨hb, -, hf⟩ := hs
  have hstatus := finishUpdate_respStatus z (resolve (validate s.last (sample a b)) c.out.movement)
    (s.setPhase c.next (sample a b)) hv
  refine ⟨_, c, exec_update_eq ⟨hb, hf, hv⟩ hc ho, hc, finishUpdate_fst _ _ _, finishUpdate_last _ _ _,
    (finishUpdate_fault _ _ _).trans hf, finishUpdate_respValid _ _ _, hstatus.trans (tableStatus_eq _ _ ho), ?_⟩
  rw [hstatus]
  exact UpdateResult.code_status_ne_fault _

/-- Settles O41: by WF item 2 the cell of the identity input holds the same state with Neutral, and the validator finds
no jump, so the result is `Ok(None)`. -/
theorem stutterChangesNothing : Obligations.StutterChangesNothing := by
  intro z a b s ⟨hb, ho, hf⟩ hlock hv hi
  have hc : transition s.rom s.cfg.mode s.fst (sample a b) = some ⟨s.fst, .neutral⟩ := by
    rw [hi, hlock]
    exact tableWF_stutter (built_iff.mp hb).2.2 ho
  have hr : resolve (validate s.last (sample a b)) Output.neutral.movement = .ok none := by
    rw [hi, validate_self]
    rfl
  have hexec := exec_update_eq (z := z) ⟨hb, hf, hv⟩ hc nofun
  rw [hr] at hexec
  refine ⟨_, hexec, finishUpdate_fst _ _ _, (finishUpdate_last _ _ _).trans hi,
    finishUpdate_respStatus _ _ _ hv, fun hedge => ?_⟩
  rw [finishUpdate_counter]
  split
  · rfl
  · rw [if_neg fun ⟨hvar, he⟩ => absurd ((hedge hvar).symm.trans he) Bool.false_ne_true]
    rfl

/-! ### The spec's tables -/

/-- Settles O36, table by table. -/
theorem specTableCells : Obligations.SpecTableCells :=
  ⟨by decide, by decide, by decide⟩

/-- Settles O37 by the evaluation of WF and of the reachable set of each table. -/
theorem specTablesAreWellFormed : Obligations.SpecTablesAreWellFormed :=
  ⟨fun _ => specTable_wf, reachable_full, reachable_half, reachable_quad⟩

/-- In the spec's tables both clean cycles return to `N0` (40_transducer.md R116). -/
theorem stateAfter_cleanCycles {mode : Mode} (h : mode ≠ .code3) :
    stateAfter [] mode .N0 forwardCycle = some .N0 ∧ stateAfter [] mode .N0 reverseCycle = some .N0 := by
  cases mode with
  | full => decide
  | half => decide
  | quad => decide
  | code3 => exact absurd rfl h

/-- Settles O39: the outputs are what WF item 4 asks of each table. -/
theorem cleanCyclesEmitTheirPulses : Obligations.CleanCyclesEmitTheirPulses := by
  obtain ⟨fullForward, fullReverse⟩ := tableWF_cycles specTable_full_wf
  obtain ⟨halfForward, halfReverse⟩ := tableWF_cycles specTable_half_wf
  obtain ⟨quadForward, quadReverse⟩ := tableWF_cycles specTable_quad_wf
  exact ⟨fullForward, halfForward, quadForward, fullReverse, halfReverse, quadReverse,
    fun _ => stateAfter_cleanCycles⟩

/-- A cell of the spec's tables that is no sentinel leads to a state whose phase is its input (40_transducer.md
R114). -/
theorem specTable_next_phase {mode : Mode} (h : mode ≠ .code3) {st : FstState} {i : Sample} {c : Transition}
    (hc : transition [] mode st i = some c) (ho : c.out ≠ .errorSentinel) : c.next.phase = i := by
  have cells : ∀ md ∈ [Mode.full, .half, .quad], ∀ st ∈ FstState.all, ∀ i : Sample,
      ∀ c ∈ transition [] md st i, c.out ≠ .errorSentinel → c.next.phase = i := by decide
  have hm : mode ∈ [Mode.full, .half, .quad] := by
    cases mode with
    | code3 => exact absurd rfl h
    | _ => decide
  exact cells mode hm st (FstState.mem_all st) i c hc ho

/-- The moves of the spec's tables from a reachable state keep `LAST` the phase of `STATE` (40_transducer.md R114). -/
theorem PhaseMove.last_eq_phase {mode : Mode} (hmode : mode ≠ .code3) {st st' : FstState} {last last' : Sample}
    (h : PhaseMove [] mode st last st' last') (hst : st ∈ reachable [] mode) (hlock : last = st.phase) :
    last' = st'.phase := by
  cases h with
  | hold => exact hlock
  | reset => rfl
  | take hc => exact (specTable_next_phase hmode hc (tableWF_noSentinel (specTable_wf hmode) hst hc)).symm

/-- Settles O53: the step keeps the machine sound and the tables, and its move of the phase keeps the equation. -/
theorem lastIsThePhaseOfState : Obligations.LastIsThePhaseOfState := by
  intro s t hs hspec hlock h
  obtain ⟨-, hmove⟩ := step_phaseMove hs h
  have hreach : s.fst ∈ reachable s.rom s.cfg.mode := hs.2.1
  rw [hspec] at hmove hreach
  exact ⟨step_keeps_sound hs h, (step_keeps h).2.1.trans hspec,
    hmove.last_eq_phase (built_iff.mp hs.1).1 hreach hlock⟩

/-! ### Quarter steps in QUAD -/

section
variable {st : FstState} {c : Transition}

/-- In QUAD every quarter forward outputs Forward (40_transducer.md R101, R107). -/
theorem quad_out_fwdPhase (hst : st ∈ reachable [] .quad) (hc : transition [] .quad st (fwdPhase st.phase) = some c) :
    c.out = .forward := by
  have cells : ∀ st ∈ [FstState.N0, .F1, .R1, .N2], ∀ c ∈ transition [] .quad st (fwdPhase st.phase),
      c.out = .forward := by decide
  exact cells st (reachable_quad ▸ hst) c hc

/-- In QUAD every quarter backward outputs Reverse (40_transducer.md R101, R107). -/
theorem quad_out_revPhase (hst : st ∈ reachable [] .quad) (hc : transition [] .quad st (revPhase st.phase) = some c) :
    c.out = .reverse := by
  have cells : ∀ st ∈ [FstState.N0, .F1, .R1, .N2], ∀ c ∈ transition [] .quad st (revPhase st.phase),
      c.out = .reverse := by decide
  exact cells st (reachable_quad ▸ hst) c hc

end

/-- Settles O43: the status is that of the cell's output, and each distance from the phase of `STATE` has one. -/
theorem quadReportsEveryQuarter : Obligations.QuadReportsEveryQuarter := by
  intro z a b s hs hspec hlock hv hmode
  obtain ⟨t, c, hexec, hc, -, -, -, -, hstatus, -⟩ := updateCompletesFromSoundStates z a b s hs hv
  have hreach : s.fst ∈ reachable s.rom s.cfg.mode := hs.2.1
  rw [hspec, hmode] at hc hreach
  rw [hlock] at hstatus ⊢
  have hrev : sample a b = revPhase s.fst.phase → t.respStatus = 0x2#4 := by
    intro hi
    rw [hi] at hc hstatus
    rw [hstatus, quad_out_revPhase hreach hc]
    exact tableStatus_reverse (by rw [hamming_revPhase]; decide)
  have halias : sample a b = fwdPhase (fwdPhase (fwdPhase s.fst.phase)) → t.respStatus = 0x2#4 :=
    fun hi => hrev (hi.trans (fwdPhase_fwdPhase_fwdPhase _))
  refine ⟨t, hexec, fun hi => ?_, hrev, halias, fun hi => ?_, fun hi => ?_⟩
  · rw [hi] at hc hstatus
    rw [hstatus, quad_out_fwdPhase hreach hc]
    exact tableStatus_forward (by rw [hamming_fwdPhase]; decide)
  · rw [hstatus, hi]
    exact tableStatus_diagonal (hamming_fwdPhase_fwdPhase _) (tableWF_noSentinel specTable_quad_wf hreach hc)
  · rw [hi] at hc hstatus
    cases hc.symm.trans (tableWF_stutter specTable_quad_wf hreach)
    rw [hstatus]
    exact tableStatus_neutral (by rw [hamming_self]; decide)

end Sys2Proof.Machine
end

