-- ==== Sys2Proof/Proofs/Validator.lean ====
section
/-! The obligation of 41_validator.md. -/

namespace Sys2Proof.Machine

/-- The only sample at distance 2 is the diagonal partner (00_scope.md R14, R19). -/
theorem hamming_eq_two_iff (p i : Sample) : hamming p i = 2 ↔ i = diagonal p := by
  revert p i; decide

/-- The verdict is an error exactly on the jump to the diagonal partner, and names the sample left (41_validator.md
R130, R131). -/
theorem validate_eq_ite_diagonal (last i : Sample) :
    validate last i = if i = diagonal last then some (.leaving last) else none := by
  simp only [validate, hamming_eq_two_iff]

/-- Settles O40, row by row of the table: each sample left has one illegal target, its diagonal partner. -/
theorem validatorVerdicts : Obligations.ValidatorVerdicts := by
  intro last i
  refine ⟨?_, rfl, rfl, rfl, rfl⟩
  rw [validate_eq_ite_diagonal]
  have hlast : last = 0b00#2 ∨ last = 0b01#2 ∨ last = 0b10#2 ∨ last = 0b11#2 := by
    simpa [allSamples] using mem_allSamples last
  rcases hlast with rfl | rfl | rfl | rfl <;> simp [diagonal, DiagonalError.leaving]

end Sys2Proof.Machine
end

