-- ==== Sys2Proof/Proofs/Update.lean ====
section
/-! SUPPORT. `UPDATE` and the counter: everything an `UPDATE` that answers can be, what its status says of its result,
and the number the result leaves in the counter. -/

namespace Sys2Proof.Machine

/-! ### What an update answers -/

section
variable {s t : State} {z a b : Bool}

/-- Everything an `UPDATE` that answers a next state can be: a response of the preamble, the defect, or the cell taken
and the variant's writes (42_decoder.md R150, R165, 60_exceptions.md R222, R225). -/
theorem exec_update_next (h : exec (.update z a b) s = .next t) :
    t = s.respond .fault 0#128 ∨ t = s.respondIllegal ∨ t = s.raiseFault ∨
      (s.cfg.variant.hasDecoder = true ∧ ∃ c r, transition s.rom s.cfg.mode s.fst (sample a b) = some c ∧
        r = resolve (validate s.last (sample a b)) c.out.movement ∧
        t = finishUpdate z r (s.setPhase c.next (sample a b))) := by
  obtain ⟨hb, ⟨-, ht⟩ | ⟨-, -, ht⟩ | ⟨-, hl, hbody⟩⟩ := exec_next h
  · exact .inl ht
  · exact .inr (.inl ht)
  · obtain ⟨c, hc, ⟨-, ht⟩ | ⟨-, ht⟩⟩ := updateBody_next hb hl hbody
    · exact .inr (.inr (.inl ht))
    · exact .inr (.inr (.inr ⟨hl, c, _, hc, rfl, ht⟩))

theorem finishUpdate_of_quadrature (s : State) (hv : s.cfg.variant = .quadrature) (z : Bool) (r : UpdateResult) :
    finishUpdate z r s = finishQuadrature r s := by
  simp [finishUpdate, hv]

theorem finishUpdate_of_incremental (s : State) (hv : s.cfg.variant = .incremental) (z : Bool) (r : UpdateResult) :
    finishUpdate z r s = finishIncremental r s := by
  simp [finishUpdate, hv]

/-- Without an index edge an update that finishes counts its result (42_decoder.md R152, 43_index.md R196). -/
theorem finishUpdate_counter_of_noEdge (hc : s.cfg.variant.hasCounter = true)
    (hedge : s.cfg.variant = .indexedIncremental → indexEdge s z = false) (r : UpdateResult) :
    (finishUpdate z r s).counter = countResult s.cfg s.counter r := by
  have hno : ¬ (s.cfg.variant = .indexedIncremental ∧ indexEdge s z = true) :=
    fun ⟨hv, he⟩ => absurd ((hedge hv).symm.trans he) Bool.false_ne_true
  rw [finishUpdate_counter, if_neg (by simp [hc]), if_neg hno]

end

/-! ### Results and their statuses -/

section
variable {r : UpdateResult}

/-- No result is reported as an illegal command (42_decoder.md R151). -/
theorem UpdateResult.code_status_ne_illegal (r : UpdateResult) : r.status.code ≠ 0x8#4 := by
  rcases r with (_ | _ | _) | (_ | _ | _ | _) <;> decide

/-- The status of a movement reports that movement and nothing else (42_decoder.md R151). -/
theorem UpdateResult.eq_movement {m : Movement} (h : r.status.code = (UpdateResult.ok (some m)).status.code) :
    r = .ok (some m) := by
  cases m with
  | forward =>
    rcases r with (_ | _ | _) | e
    · cases h
    · rfl
    · cases h
    · cases e <;> cases h
  | reverse =>
    rcases r with (_ | _ | _) | e
    · cases h
    · cases h
    · rfl
    · cases e <;> cases h

/-- A result whose status is neither movement's leaves the counter (42_decoder.md R152). -/
theorem countResult_of_no_movement (c : Config) (x : Word) (h1 : r.status.code ≠ 0x1#4)
    (h2 : r.status.code ≠ 0x2#4) : countResult c x r = x := by
  rcases r with (_ | _ | _) | e
  · rfl
  · exact absurd rfl h1
  · exact absurd rfl h2
  · rfl

/-- An update that answers a movement has counted it, unless an index edge cleared the counter (42_decoder.md R152,
43_index.md R196). -/
theorem exec_update_movement {s t : State} {z a b : Bool} {m : Movement} (hc : s.cfg.variant.hasCounter = true)
    (hedge : s.cfg.variant = .indexedIncremental → indexEdge s z = false) (h : exec (.update z a b) s = .next t)
    (hm : t.respStatus = (UpdateResult.ok (some m)).status.code) : t.counter = satAdd s.cfg s.counter m := by
  obtain rfl | rfl | rfl | ⟨hd, c, r, -, -, rfl⟩ := exec_update_next h
  · cases m <;> cases hm
  · cases m <;> cases hm
  · cases m <;> cases hm
  · have hr : r = .ok (some m) := UpdateResult.eq_movement
      ((finishUpdate_respStatus z r (s.setPhase c.next (sample a b)) hd).symm.trans hm)
    rw [finishUpdate_counter_of_noEdge (s := s.setPhase c.next (sample a b)) hc hedge, hr]
    rfl

end

/-! ### The number in the counter -/

section
variable {c : Config} (hw : c.widthLegal = true)
include hw

/-- `SAT_ADD` by +1 stops at `COUNTER_MAX` (42_decoder.md R153). -/
theorem counterValue_satAdd_forward (x : Word) :
    c.counterValue (satAdd c x .forward) = min (c.counterValue x + 1) c.counterMax := by
  obtain ⟨hmin, -⟩ := counterValue_bounds hw x
  rw [counterValue_satAdd hw, Movement.toInt, clamp_of_le (by omega)]
  split <;> omega

/-- `SAT_ADD` by -1 stops at `COUNTER_MIN` (42_decoder.md R153). -/
theorem counterValue_satAdd_reverse (x : Word) :
    c.counterValue (satAdd c x .reverse) = max (c.counterValue x - 1) c.counterMin := by
  obtain ⟨-, hmax⟩ := counterValue_bounds hw x
  rw [counterValue_satAdd hw, Movement.toInt, clamp]
  split
  · omega
  · split <;> omega

/-- A sum within the bounds is not clamped (42_decoder.md R153). -/
theorem counterValue_satAdd_of_fits {x : Word} {m : Movement} (hmin : c.counterMin ≤ c.counterValue x + m.toInt)
    (hmax : c.counterValue x + m.toInt ≤ c.counterMax) :
    c.counterValue (satAdd c x m) = c.counterValue x + m.toInt := by
  rw [counterValue_satAdd hw, clamp_of_le hmin, if_neg (by omega)]

/-- A pattern's number is that of its W wires (10_state.md R24). -/
theorem counterValue_wires (x : Word) : c.counterValue (c.wires x) = c.counterValue x := by
  simp only [Config.counterValue, setWidth_wires c (width_pos hw).2]

end

end Sys2Proof.Machine
end

