-- ==== Sys2Proof/Proofs/Counting.lean ====
section
/-! SUPPORT. Counting along a path: updates in INCREMENTAL whose samples make no diagonal jump add up what the table
emits, as long as the bounds leave room (42_decoder.md R166). -/

namespace Sys2Proof.Machine

/-! ### Emissions -/

theorem outputsFrom_cons {m : Memory} {mode : Mode} {st : FstState} {i : Sample} {c : Transition}
    (hc : transition m mode st i = some c) (rest : List Sample) :
    outputsFrom m mode st (i :: rest) = c.out :: outputsFrom m mode c.next rest := by
  simp [outputsFrom, hc]

theorem mem_emissions {mode : Mode} {o x : Output} (h : x ∈ emissions mode o) : x = .neutral ∨ x = o := by
  cases mode <;> simp only [emissions, List.mem_cons, List.not_mem_nil] at h <;> tauto

/-- A mode's emission points along a clean cycle are as many as its pulses per cycle (40_transducer.md R101,
30_encoding.md R85). -/
theorem count_emissions {mode : Mode} {n : Nat} (h : mode.ppc = some n) (o : Output) (ho : o ≠ .neutral) :
    (emissions mode o).count o = n := by
  cases mode with
  | code3 => cases h
  | _ => cases h; simp [emissions, ho.symm]

/-! ### One update -/

/-- On a sound machine in INCREMENTAL an update without a diagonal jump takes its cell and counts the cell's output
(42_decoder.md R151, R152). -/
theorem exec_update_clean {z a b : Bool} {s : State} (hs : s.sound) (hv : s.cfg.variant = .incremental)
    (hclean : hamming s.last (sample a b) ≠ 2) :
    ∃ t c, exec (.update z a b) s = .next t ∧ transition s.rom s.cfg.mode s.fst (sample a b) = some c ∧
      t.sound ∧ t.cfg = s.cfg ∧ t.rom = s.rom ∧ t.fst = c.next ∧ t.last = sample a b ∧
      t.counter = countResult s.cfg s.counter (.ok c.out.movement) := by
  obtain ⟨c, hc, ho⟩ := sound_transition hs (sample a b)
  obtain ⟨hb, hreach, hf⟩ := hs
  have hr : resolve (validate s.last (sample a b)) c.out.movement = .ok c.out.movement := by
    simp [validate, hclean, resolve]
  have hexec := exec_update_eq (z := z) ⟨hb, hf, by rw [hv]; rfl⟩ hc ho
  rw [hr, finishUpdate_of_incremental (s.setPhase c.next _) hv] at hexec
  exact ⟨_, c, hexec, hc, ⟨hb, next_reachable hreach hc, hf⟩, rfl, rfl, rfl, rfl, rfl⟩

/-- The number that the outputs still to come lead to does not change when the next output `p` is counted, if all go one
way and that number lies within the bounds: then so do the numbers on the way. -/
theorem counterValue_countResult_add_count {c : Config} (hw : c.widthLegal = true) {x : Word} {o p : Output}
    {m : Movement} (hm : o.movement = some m) (hp : p = .neutral ∨ p = o) {outs : List Output} {v : Int}
    (hv : c.counterValue x + (p :: outs).count o * m.toInt = v) (hmin : c.counterMin ≤ v) (hmax : v ≤ c.counterMax) :
    c.counterValue (countResult c x (.ok p.movement)) + outs.count o * m.toInt = v := by
  obtain rfl | rfl := hp
  · have hne : Output.neutral ≠ o := by
      rintro rfl
      cases hm
    rwa [List.count_cons_of_ne hne] at hv
  · obtain ⟨hlow, hhigh⟩ := counterValue_bounds hw x
    rw [List.count_cons_self] at hv
    have hfits : c.counterMin ≤ c.counterValue x + m.toInt ∧ c.counterValue x + m.toInt ≤ c.counterMax := by
      cases m <;> simp only [Movement.toInt] at hv ⊢ <;> omega
    rw [hm, countResult, counterValue_satAdd_of_fits hw hfits.1 hfits.2, ← hv]
    push_cast
    ring

/-! ### A path of updates -/

/-- The updates with the samples `ab` of a list and the index input `z`, executed one after another, all answer next
states, and the last of these has the property `P`. -/
def UpdatesEndIn (P : State → Prop) (z : Bool) : List (Bool × Bool) → State → Prop
  | [], s => P s
  | (a, b) :: rest, s => ∃ t, exec (.update z a b) s = .next t ∧ UpdatesEndIn P z rest t

/-- On a path without a diagonal jump whose movements all go one way, the updates complete and add up the movements, when
the sum lies within the bounds. -/
theorem updates_count {z : Bool} {o : Output} {m : Movement} (hm : o.movement = some m) {v : Int}
    {path : List (Bool × Bool)} {s : State} {outs : List Output} (hs : s.sound) (hvar : s.cfg.variant = .incremental)
    (hclean : List.IsChain (fun p i => hamming p i ≠ 2) (s.last :: path.map fun p => sample p.1 p.2))
    (houts : outputsFrom s.rom s.cfg.mode s.fst (path.map fun p => sample p.1 p.2) = outs)
    (hone : ∀ x ∈ outs, x = .neutral ∨ x = o) (hv : s.cfg.counterValue s.counter + outs.count o * m.toInt = v)
    (hmin : s.cfg.counterMin ≤ v) (hmax : v ≤ s.cfg.counterMax) :
    UpdatesEndIn (fun t => t.cfg.counterValue t.counter = v) z path s := by
  induction path generalizing s outs with
  | nil =>
    subst houts
    simpa [outputsFrom, UpdatesEndIn] using hv
  | cons p rest ih =>
    obtain ⟨hfirst, hrest⟩ := List.isChain_cons_cons.mp hclean
    obtain ⟨t, c, hexec, hc, ht, hcfg, hrom, hfst, hlast, hcount⟩ := exec_update_clean (z := z) hs hvar hfirst
    rw [List.map_cons, outputsFrom_cons hc] at houts
    subst houts
    obtain ⟨hout, hone⟩ := List.forall_mem_cons.mp hone
    have hw : s.cfg.widthLegal = true := (built_iff.mp hs.1).2.1
    refine ⟨t, hexec, ih ht (hcfg ▸ hvar) (hlast ▸ hrest) rfl ?_ ?_ (hcfg ▸ hmin) (hcfg ▸ hmax)⟩
    · rwa [hrom, hcfg, hfst]
    · rw [hrom, hcfg, hfst, hcount]
      exact counterValue_countResult_add_count hw hm hout hv hmin hmax

end Sys2Proof.Machine
end

