-- ==== Sys2Proof/Proofs/Decoder.lean ====
section
/-! The obligations of 42_decoder.md. -/

namespace Sys2Proof.Machine

/-! ### UPDATE -/

/-- Settles O20: the cell is taken, and QUADRATURE writes the response alone. -/
theorem updateInQuadrature : Obligations.UpdateInQuadrature := by
  intro z a b s n o ha hv hc ho
  rw [exec_update_eq ha hc ho, finishUpdate_of_quadrature (s.setPhase n _) hv, ← tableStatus_eq _ _ ho]
  rfl

/-- Settles O21: the cell is taken, and INCREMENTAL writes the counter with the response. -/
theorem updateInIncremental : Obligations.UpdateInIncremental := by
  intro z a b s n o ha hv hc ho
  have hw : s.cfg.widthLegal = true := (built_iff.mp ha.1).2.1
  rw [exec_update_eq ha hc ho, finishUpdate_of_incremental (s.setPhase n _) hv, ← tableStatus_eq _ _ ho,
    ← tableCount_eq hw]
  rfl

/-- Settles O33. The responses of the preamble and the defect write no block register; an update that finishes answers
the status of its result, which is never 0x8 or 0xF, and counts movements only. -/
theorem updateFrame : Obligations.UpdateFrame := by
  intro z a b s t h
  obtain ⟨hcfg, hrom, hinputs⟩ := exec_keeps h
  refine ⟨hcfg, hinputs, fun x => by rw [hrom], fun hv => ?_, (exec_keeps_counter · h), ?_⟩
  · obtain rfl | rfl | rfl | ⟨-, c, r, -, -, rfl⟩ := exec_update_next h
    · exact ⟨rfl, rfl⟩
    · exact ⟨rfl, rfl⟩
    · exact ⟨rfl, rfl⟩
    · simp [finishUpdate_index, hv]
  · have habsent := (exec_keeps_counter · h)
    obtain rfl | rfl | rfl | ⟨hd, c, r, -, -, rfl⟩ := exec_update_next h
    · simp
    · simp
    · simp [Status.code]
    · rw [finishUpdate_respStatus z r (s.setPhase c.next (sample a b)) hd]
      refine ⟨fun h1 h2 hedge => ?_, ?_, fun _ => finishUpdate_fault _ _ _⟩
      · cases hc : s.cfg.variant.hasCounter with
        | false => exact habsent hc
        | true =>
          exact (finishUpdate_counter_of_noEdge (s := s.setPhase c.next (sample a b)) hc hedge r).trans
            (countResult_of_no_movement _ _ h1 h2)
      · rintro (h8 | hF)
        · exact absurd h8 r.code_status_ne_illegal
        · exact absurd hF r.code_status_ne_fault

/-! ### RESET -/

/-- The reset values written again are the reset values (42_decoder.md R155, R156). -/
theorem commandReset_respond_commandReset (s : State) (st : Status) (d : Word) :
    (s.commandReset.respond st d).commandReset.respond st d = s.commandReset.respond st d := by
  simp +contextual [commandReset_eq, State.respond]

/-- Settles O24: the state that `RESET` leaves accepts a second `RESET`, which writes the same values. -/
theorem resetCommandRestoresTheVariantsRegisters : Obligations.ResetCommandRestoresTheVariantsRegisters := by
  intro u s ha
  have hagain : (s.commandReset.respond .ok 0#128).accepts .reset := by
    rw [commandReset_eq]
    exact ha
  refine ⟨_, exec_accepts (i := .reset u) ha, ?_, ?_⟩
  · rw [exec_accepts (i := .reset u) hagain]
    exact congrArg Host.Outcome.next (commandReset_respond_commandReset s _ _)
  · rw [commandReset_eq]
    rfl

/-! ### The counter and the reads -/

/-- Settles O25: the body of `SET_COUNTER` writes the wires of the bus, and a number that fits them passes unchanged. -/
theorem setCounterStoresTheOperand : Obligations.SetCounterStoresTheOperand :=
  fun u d _ ha => ⟨exec_accepts (i := .setCounter u d) ha, wires_of_lt _⟩

/-- Settles O26: the body of `READ_COUNTER` is the response with the counter's wires. -/
theorem readCounterAnswersTheCounter : Obligations.ReadCounterAnswersTheCounter :=
  fun u _ ha => exec_accepts (i := .readCounter u) ha

/-- Settles O27, mode by mode: a machine that can be built has one of the three. -/
theorem readPpcAnswersThePulsesPerCycle : Obligations.ReadPpcAnswersThePulsesPerCycle := by
  intro u s ha
  rw [exec_accepts (i := .readPpc u) ha]
  cases hm : s.cfg.mode with
  | full => exact readPpcBody_eq (n := 1) (by rw [hm]; rfl)
  | half => exact readPpcBody_eq (n := 2) (by rw [hm]; rfl)
  | quad => exact readPpcBody_eq (n := 4) (by rw [hm]; rfl)
  | code3 => exact absurd hm (built_iff.mp ha.1).1

/-- Settles O45 from the bounds of a pattern's number and the clamped sum of each movement. -/
theorem saturatingAddClampsTheExactSum : Obligations.SaturatingAddClampsTheExactSum := by
  intro c x hw
  obtain ⟨hmin, hmax⟩ := counterValue_bounds hw x
  exact ⟨hmin, hmax, counterValue_satAdd_forward hw x, counterValue_satAdd_reverse hw x, wires_satAdd c x _,
    wires_satAdd c x _⟩

/-- Settles O46: `SET_COUNTER` leaves the operand's wires in the counter, and an update that answers a movement adds it
to what it finds there. -/
theorem setCounterThenMovement : Obligations.SetCounterThenMovement := by
  intro u d z a b s ha
  have hw : s.cfg.widthLegal = true := (built_iff.mp ha.1).2.1
  refine ⟨_, exec_accepts (i := .setCounter u d) ha, fun t h hedge => ?_⟩
  have hcount {m : Movement} (hm : t.respStatus = (UpdateResult.ok (some m)).status.code) :
      t.counter = satAdd s.cfg (s.cfg.wires d) m :=
    exec_update_movement (s := (s.setCounter (s.cfg.wires d)).respond .ok 0#128) ha.2.2 hedge h hm
  rw [← counterValue_wires hw d]
  constructor
  · intro h1
    rw [hcount (m := .forward) h1]
    exact counterValue_satAdd_forward hw _
  · intro h2
    rw [hcount (m := .reverse) h2]
    exact counterValue_satAdd_reverse hw _

/-- Settles O49: by WF item 4 a clean cycle emits one movement at each of the mode's emission points and Neutral
elsewhere, and its samples make no diagonal jump, so the counter moves by the number of the points. -/
theorem cleanCycleCountsThePulsesPerCycle : Obligations.CleanCycleCountsThePulsesPerCycle := by
  intro z s n hs hvar hfst hlast hn
  obtain ⟨-, hw, hwf⟩ := built_iff.mp hs.1
  obtain ⟨hforward, hreverse⟩ := tableWF_cycles hwf
  obtain ⟨hlow, hhigh⟩ := counterValue_bounds hw s.counter
  rw [← hfst] at hforward hreverse
  constructor
  · intro hmax
    have hv : s.cfg.counterValue s.counter + (emissions s.cfg.mode .forward).count .forward * Movement.forward.toInt =
        s.cfg.counterValue s.counter + n := by
      rw [count_emissions hn .forward nofun, Movement.toInt, mul_one]
    obtain ⟨s1, h1, s2, h2, s3, h3, s4, h4, hsum⟩ := updates_count (z := z) (o := .forward) rfl
      (path := [(false, true), (false, false), (true, false), (true, true)]) hs hvar (by rw [hlast]; decide)
      hforward (fun _ => mem_emissions) hv (by omega) hmax
    exact ⟨s1, s2, s3, s4, h1, h2, h3, h4, hsum⟩
  · intro hmin
    have hv : s.cfg.counterValue s.counter + (emissions s.cfg.mode .reverse).count .reverse * Movement.reverse.toInt =
        s.cfg.counterValue s.counter - n := by
      rw [count_emissions hn .reverse nofun, Movement.toInt, mul_neg_one, ← sub_eq_add_neg]
    obtain ⟨s1, h1, s2, h2, s3, h3, s4, h4, hsum⟩ := updates_count (z := z) (o := .reverse) rfl
      (path := [(true, false), (false, false), (false, true), (true, true)]) hs hvar (by rw [hlast]; decide)
      hreverse (fun _ => mem_emissions) hv hmin (by omega)
    exact ⟨s1, s2, s3, s4, h1, h2, h3, h4, hsum⟩

/-! ### The frame of the writing commands -/

section
variable {s t : State}

/-- Only `UPDATE` writes the latch (10_state.md R26, 60_exceptions.md R222). -/
theorem exec_keeps_fault {i : Instr} (hi : i.op ≠ .update) (h : exec i s = .next t) : t.fault = s.fault := by
  obtain ⟨hb, ⟨-, rfl⟩ | ⟨-, -, rfl⟩ | ⟨-, -, hbody⟩⟩ := exec_next h
  · rfl
  · rfl
  · cases i with
    | update z a b => exact absurd rfl hi
    | reset u => cases hbody; rw [commandReset_eq]; rfl
    | readPpc u =>
      obtain ⟨n, hn, -⟩ := ppc_exists (built_iff.mp hb).1
      cases (readPpcBody_eq hn).symm.trans hbody
      rfl
    | _ => cases hbody; rfl

/-- A `SET_COUNTER` that answers, whether it ran or not, leaves the phase and the index registers (42_decoder.md R160,
43_index.md R201). -/
theorem exec_setCounter_frame {u : BitVec 3} {d : Word} (h : exec (.setCounter u d) s = .next t) :
    t.fst = s.fst ∧ t.last = s.last ∧ t.zlast = s.zlast ∧ t.zprimed = s.zprimed := by
  obtain ⟨-, ⟨-, rfl⟩ | ⟨-, -, rfl⟩ | ⟨-, -, hbody⟩⟩ := exec_next h
  · simp
  · simp
  · cases hbody
    simp

/-- An `INDEX_UPDATE` that answers, whether it ran or not, leaves the phase and the counter (43_index.md R192). -/
theorem exec_indexUpdate_frame {z : Bool} {u : BitVec 2} (h : exec (.indexUpdate z u) s = .next t) :
    t.fst = s.fst ∧ t.last = s.last ∧ t.counter = s.counter := by
  obtain ⟨-, ⟨-, rfl⟩ | ⟨-, -, rfl⟩ | ⟨-, -, hbody⟩⟩ := exec_next h
  · simp
  · simp
  · cases hbody
    simp

end

/-- Settles O32 from the frame of each command; the registers a variant lacks are kept by every command. -/
theorem writesStayInTheirRegisters : Obligations.WritesStayInTheirRegisters := by
  intro i s t h
  obtain ⟨hcfg, hrom, hinputs⟩ := exec_keeps h
  refine ⟨fun hi => ?_, fun hi => ?_,
    fun _ => ⟨(exec_keeps_phase · h), (exec_keeps_counter · h), (exec_keeps_index · h)⟩, fun hi => ?_⟩
  · cases i with
    | setCounter u d => exact exec_setCounter_frame h
    | _ => cases hi
  · cases i with
    | indexUpdate z u => exact exec_indexUpdate_frame h
    | _ => cases hi
  · have hop : i.op ≠ .update := fun hu => by simp [hu] at hi
    exact ⟨exec_keeps_fault hop h, hcfg, hinputs, fun a => by rw [hrom]⟩

end Sys2Proof.Machine
end

