-- ==== Sys2Proof/Proofs/IndexEdge.lean ====
section
/-! SUPPORT. The index edge: when an evaluation reports one, what a run of `INDEX_UPDATE` answers, and what an indexed
`UPDATE` answers beside the counter. -/

namespace Sys2Proof.Machine

variable {s : State} {z a b : Bool}

/-! ### INDEX_UPDATE -/

/-- A rise of the index that an earlier evaluation has primed is an edge (43_index.md R191). -/
theorem indexEdge_true_of_primed (hz : s.zlast = false) (hp : s.zprimed = true) : indexEdge s true = true :=
  indexEdge_iff.mpr ⟨rfl, hz, .inl hp⟩

/-- An index that is low is no edge (43_index.md R191). -/
theorem indexEdge_of_low (s : State) : indexEdge s false = false := rfl

/-- An index that was high already is no edge (43_index.md R191). -/
theorem indexEdge_of_zlast (hz : s.zlast = true) : indexEdge s z = false := by
  simp [indexEdge, hz]

/-- The bus word of an edge, by the rule's own condition (43_index.md R191, 30_encoding.md R88). -/
theorem edgeData_indexEdge (s : State) (z : Bool) :
    edgeData (indexEdge s z) =
      if z = true ∧ s.zlast = false ∧ (s.zprimed = true ∨ s.cfg.indexFirstEdge = .report) then 1#128 else 0#128 := by
  rw [← if_congr indexEdge_iff rfl rfl]
  cases indexEdge s z <;> simp

/-- The state that an `INDEX_UPDATE` that runs leaves (43_index.md R192). -/
def State.afterIndexUpdate (s : State) (z : Bool) : State :=
  (s.evaluateIndex z).respond .ok (edgeData (indexEdge s z))

theorem exec_indexUpdate_eq (u : BitVec 2) (ha : s.accepts .indexUpdate) :
    exec (.indexUpdate z u) s = .next (s.afterIndexUpdate z) :=
  exec_accepts (i := .indexUpdate z u) ha

/-- An `INDEX_UPDATE` can follow an `INDEX_UPDATE`. -/
theorem afterIndexUpdate_accepts (ha : s.accepts .indexUpdate) (z : Bool) :
    (s.afterIndexUpdate z).accepts .indexUpdate := ha

/-- The data of a list of commands that starts with `INDEX_UPDATE` (43_index.md R192). -/
theorem dataOf_indexUpdate (u : BitVec 2) (rest : List Instr) (ha : s.accepts .indexUpdate) :
    dataOf s (.indexUpdate z u :: rest) =
      (dataOf (s.afterIndexUpdate z) rest).map fun l => edgeData (indexEdge s z) :: l := by
  rw [dataOf, exec_indexUpdate_eq u ha]
  rfl

/-- While the index stays high after a high, no evaluation reports an edge (43_index.md R193). -/
theorem dataOf_steady_high (us : List (BitVec 2)) (ha : s.accepts .indexUpdate) (hz : s.zlast = true) :
    dataOf s (us.map fun w => .indexUpdate true w) = some (us.map fun _ => 0#128) := by
  induction us generalizing s with
  | nil => rfl
  | cons u us ih =>
    rw [List.map_cons, dataOf_indexUpdate u _ ha, ih (afterIndexUpdate_accepts ha true) rfl, indexEdge_of_zlast hz]
    simp

/-! ### The indexed UPDATE -/

theorem finishUpdate_of_indexedIncremental (s : State) (hv : s.cfg.variant = .indexedIncremental) (z : Bool)
    (r : UpdateResult) : finishUpdate z r s = finishIndexed z r s := by
  simp [finishUpdate, hv]

/-- Taking a cell leaves the registers that the index reads (42_decoder.md R150, 43_index.md R191). -/
theorem indexEdge_setPhase (s : State) (n : FstState) (i : Sample) (z : Bool) :
    indexEdge (s.setPhase n i) z = indexEdge s z := rfl

/-- An update that finishes answers no data (42_decoder.md R152, R165, 43_index.md R196). -/
theorem finishUpdate_respData (z : Bool) (r : UpdateResult) (s : State) : (finishUpdate z r s).respData = 0#128 := by
  unfold finishUpdate
  cases s.cfg.variant <;> rfl

/-- An `UPDATE` that runs into a sentinel cell is the internal defect, in every variant (60_exceptions.md R222). -/
theorem exec_update_defect {c : Transition} (ha : s.accepts .update)
    (hc : transition s.rom s.cfg.mode s.fst (sample a b) = some c) (ho : c.out = .errorSentinel) :
    exec (.update z a b) s = .next s.raiseFault := by
  obtain ⟨c', hc', ⟨-, h⟩ | ⟨ho', -⟩⟩ := updateBody_cases (z := z) (a := a) (b := b) ha.1 ha.2.2
  · exact (exec_accepts (i := .update z a b) ha).trans h
  · cases hc.symm.trans hc'
    exact absurd ho ho'

end Sys2Proof.Machine
end

