-- ==== Sys2Proof/Proofs/Index.lean ====
section
/-! The obligations of 43_index.md. -/

namespace Sys2Proof.Machine

/-! ### INDEX_UPDATE -/

/-- Settles O28: the body of `INDEX_UPDATE` is the evaluation and the response with its edge. -/
theorem indexUpdateAnswersTheEdge : Obligations.IndexUpdateAnswersTheEdge := by
  intro z u s ha
  rw [exec_indexUpdate_eq u ha, State.afterIndexUpdate, edgeData_indexEdge]
  rfl

/-- Settles O29: the low primes the evaluation, so the first high is an edge, and every further high follows a high. -/
theorem indexEdgeIsReportedOnce : Obligations.IndexEdgeIsReportedOnce := by
  intro u v us s ha
  have hlow := afterIndexUpdate_accepts ha false
  have hhigh := afterIndexUpdate_accepts hlow true
  have hedge : indexEdge (s.afterIndexUpdate false) true = true := indexEdge_true_of_primed rfl rfl
  rw [dataOf_indexUpdate u _ ha, dataOf_indexUpdate v _ hlow, dataOf_steady_high us hhigh rfl, hedge,
    indexEdge_of_low]
  simp

/-! ### The indexed UPDATE -/

/-- Settles O22: the cell is taken, and INDEXED_INCREMENTAL writes the index and the counter with the response. -/
theorem updateInIndexedIncremental : Obligations.UpdateInIndexedIncremental := by
  intro z a b s n o ha hv hc ho
  have hw : s.cfg.widthLegal = true := (built_iff.mp ha.1).2.1
  rw [exec_update_eq ha hc ho, finishUpdate_of_indexedIncremental (s.setPhase n _) hv, finishIndexed,
    indexEdge_setPhase, if_congr indexEdge_iff rfl rfl, ← tableStatus_eq _ _ ho, ← tableCount_eq hw]
  rfl

/-- Settles O47: a sound machine takes its cell, so the update finishes, and the counter it leaves is 0 on an edge
whatever its result is. -/
theorem indexEdgeAlwaysWins : Obligations.IndexEdgeAlwaysWins := by
  intro z a b s hs hv
  obtain ⟨c, hc, ho⟩ := sound_transition hs (sample a b)
  have ha : s.accepts .update := ⟨hs.1, hs.2.2, by rw [hv]; rfl⟩
  refine ⟨_, exec_update_eq ha hc ho, ?_⟩
  rw [finishUpdate_of_indexedIncremental (s.setPhase c.next _) hv]
  refine ⟨rfl, rfl, fun hz hlast hprimed => ?_⟩
  have hedge : indexEdge (s.setPhase c.next (sample a b)) z = true := indexEdge_iff.mpr ⟨hz, hlast, hprimed⟩
  simp [finishIndexed, hedge]

/-- Settles O48: the preamble and the defect do not read z, and an update that finishes answers the status of its
result, with data 0. -/
theorem indexPulseIsSilent : Obligations.IndexPulseIsSilent := by
  intro z w a b s t h
  obtain ⟨hb, ⟨hf, rfl⟩ | ⟨hf, hl, rfl⟩ | ⟨hf, hl, hbody⟩⟩ := exec_next h
  · exact ⟨_, exec_latched hb hf, rfl, rfl, rfl, rfl, rfl, rfl⟩
  · exact ⟨_, exec_illegal hb hf hl, rfl, rfl, rfl, rfl, rfl, rfl⟩
  · have ha : s.accepts .update := ⟨hb, hf, hl⟩
    obtain ⟨c, hc, ⟨ho, rfl⟩ | ⟨ho, rfl⟩⟩ := updateBody_next hb hl hbody
    · exact ⟨_, exec_update_defect ha hc ho, rfl, rfl, rfl, rfl, rfl, rfl⟩
    · have hstatus (x : Bool) := finishUpdate_respStatus x (resolve (validate s.last (sample a b)) c.out.movement)
        (s.setPhase c.next (sample a b)) hl
      exact ⟨_, exec_update_eq ha hc ho, by simp [finishUpdate_respValid], (hstatus w).trans (hstatus z).symm,
        by simp [finishUpdate_respData], by simp, by simp, by simp⟩

end Sys2Proof.Machine
end

