-- ==== Sys2Proof/Proofs/Failures.lean ====
section
/-! SUPPORT. Failures: that the latch holds until `RST`, which status a command that runs answers, and what a diagonal
jump leaves. -/

namespace Sys2Proof.Machine

variable {s t : State}

/-! ### The stopped block -/

/-- An edge of a stopped block clears the latch exactly when it is a reset (60_exceptions.md R223). -/
theorem step_fault_of_latched (h : step s = .next t) (hf : s.fault = true) : t.fault = !s.pins.rst := by
  rcases step_cases s with ⟨r, -, h'⟩ | ⟨-, hr, h'⟩ | ⟨hb, hr, -, h'⟩ | ⟨-, hr, -, h'⟩ <;> rw [h] at h'
  · cases h'
  · cases h'; rw [hr]; rfl
  · cases h'.trans (exec_latched (s := s.takeInput) hb hf); rw [hr]; exact hf
  · cases h'; rw [hr]; exact hf

/-- A host that presents no `RST` drives none at the coming edge, with an input left or without. -/
theorem pins_rst_of_inputs (h : ∀ p ∈ s.inputs, p.rst = false) : s.pins.rst = false := by
  unfold State.pins
  cases hi : s.inputs with
  | nil => rfl
  | cons p rest => exact h p (hi ▸ List.mem_cons_self)

/-- Without `RST` a stopped block stays stopped, however long the run (60_exceptions.md R223). -/
theorem run_fault_of_latched {n : Nat} (h : run n s = .next t) (hf : s.fault = true)
    (hi : ∀ p ∈ s.inputs, p.rst = false) : t.fault = true := by
  induction n generalizing s with
  | zero => cases h; exact hf
  | succ n ih =>
    obtain ⟨u, hu, hrun⟩ := run_succ_next h
    have hfu : u.fault = true := by rw [step_fault_of_latched hu hf, pins_rst_of_inputs hi]; rfl
    refine ih hrun hfu fun p hp => hi p ?_
    rw [(step_keeps hu).2.2] at hp
    exact List.mem_of_mem_tail hp

/-- A run whose end has the latch set does not end well (60_exceptions.md R223, 70_reset_and_hazards.md R266). -/
theorem not_endsWell_of_latched (h : s.endOfRun = .next t) (hf : t.fault = true) : ¬ s.endsWell := by
  rintro ⟨u, hu, hfu⟩
  cases h.symm.trans hu
  exact Bool.false_ne_true (hfu.symm.trans hf)

/-! ### The statuses -/

/-- Of a cell that is there, a property is decided by its transition. -/
theorem hasTransition_of_eq {m : Memory} {mode : Mode} {st : FstState} {i : Sample} {c : Transition}
    (hc : transition m mode st i = some c) (p : Transition → Bool) : hasTransition m mode st i p = p c := by
  rw [hasTransition, hc]

/-- An `UPDATE` that runs answers the table's status of the cell it reads, the defect's included (42_decoder.md
R151). -/
theorem updateBody_respStatus {z a b : Bool} (hb : s.built) (hl : legal .update s.cfg.variant = true)
    (h : updateBody z a b s = .next t) :
    ∃ c, transition s.rom s.cfg.mode s.fst (sample a b) = some c ∧
      t.respStatus = tableStatus s.last (sample a b) c.out := by
  obtain ⟨c, hc, ⟨ho, rfl⟩ | ⟨ho, rfl⟩⟩ := updateBody_next hb hl h
  · exact ⟨c, hc, by rw [ho]; rfl⟩
  · exact ⟨c, hc, (finishUpdate_respStatus z _ (s.setPhase c.next (sample a b)) hl).trans (tableStatus_eq _ _ ho)⟩

/-- Every command but `UPDATE` that runs answers OK (60_exceptions.md R226). -/
theorem bodyOf_respStatus_ok {i : Instr} (hi : i.op ≠ .update) (ha : s.accepts i.op) (h : bodyOf i s = .next t) :
    t.respStatus = 0x0#4 := by
  obtain ⟨hb, -, hl⟩ := ha
  cases i with
  | update z a b => exact absurd rfl hi
  | readPpc u =>
    obtain ⟨n, hn, -⟩ := ppc_exists (built_iff.mp hb).1
    cases (readPpcBody_eq hn).symm.trans h
    rfl
  | reserved110 u => cases hl
  | reserved111 u => cases hl
  | _ => cases h; rfl

/-- A status of the table that is neither the defect's nor an error's is OK or a movement's (42_decoder.md R151). -/
theorem tableStatus_of_no_error {last i : Sample} {o : Output} (ho : o ≠ .errorSentinel) (h : hamming last i ≠ 2) :
    tableStatus last i o = 0x0#4 ∨ tableStatus last i o = 0x1#4 ∨ tableStatus last i o = 0x2#4 := by
  cases o with
  | neutral => exact .inl (tableStatus_neutral h)
  | forward => exact .inr (.inl (tableStatus_forward h))
  | reverse => exact .inr (.inr (tableStatus_reverse h))
  | errorSentinel => exact absurd rfl ho

/-! ### Diagonal jumps -/

/-- In the spec's tables the diagonal cell of a reachable state is `(SYNC(i), Neutral)` (40_transducer.md R108). -/
theorem specTable_diagonal {mode : Mode} (h : mode ≠ .code3) {st : FstState} (hst : st ∈ reachable [] mode) :
    transition [] mode st (diagonal st.phase) = some ⟨sync (diagonal st.phase), .neutral⟩ := by
  cases mode with
  | full => rw [reachable_full] at hst; revert st; decide
  | half => rw [reachable_half] at hst; revert st; decide
  | quad => rw [reachable_quad] at hst; revert st; decide
  | code3 => exact absurd rfl h

/-- The code of an error names the sample left (30_encoding.md R87). -/
theorem code_err_leaving (last : Sample) : Status.code (.err (.leaving last)) = 0x4#4 ||| last.setWidth 4 := by
  revert last; decide

/-- An update whose result is an error moves no counter; an index edge clears it (42_decoder.md R152, 43_index.md
R199). -/
theorem finishUpdate_counter_of_err (z : Bool) (e : DiagonalError) (s : State) :
    (finishUpdate z (.err e) s).counter =
      if s.cfg.variant = .indexedIncremental ∧ indexEdge s z = true then 0#128 else s.counter := by
  rw [finishUpdate_counter]
  cases hv : s.cfg.variant <;> simp [Variant.hasCounter, countResult]

/-- A command keeps a machine sound (40_transducer.md R113). -/
theorem exec_keeps_sound {i : Instr} (hs : s.sound) (h : exec i s = .next t) : t.sound := by
  obtain ⟨hcfg, hrom, -⟩ := exec_keeps h
  obtain ⟨hf, hmove⟩ := exec_phaseMove hs h
  have hreach : t.fst ∈ reachable s.rom s.cfg.mode := hmove.next_mem_reachable hs.2.1
  exact ⟨(buildProblem_congr hcfg hrom).trans hs.1, by rwa [State.onTable, hcfg, hrom], hf⟩

/-- On a sound machine a sample that is not the diagonal partner of `LAST` is no error (40_transducer.md R118,
41_validator.md R130). -/
theorem exec_update_no_error {z a b : Bool} (hs : s.sound) (hv : s.cfg.variant.hasDecoder = true)
    (hi : sample a b ≠ diagonal s.last) :
    ∃ t, exec (.update z a b) s = .next t ∧
      (t.respStatus = 0x0#4 ∨ t.respStatus = 0x1#4 ∨ t.respStatus = 0x2#4) := by
  obtain ⟨t, c, hexec, hc, -, -, -, -, hstatus, -⟩ := updateCompletesFromSoundStates z a b s hs hv
  have ho : c.out ≠ .errorSentinel := tableWF_noSentinel (built_iff.mp hs.1).2.2 hs.2.1 hc
  exact ⟨t, hexec, hstatus ▸ tableStatus_of_no_error ho (mt (hamming_eq_two_iff _ _).mp hi)⟩

end Sys2Proof.Machine
end

