-- ==== Sys2Proof/Proofs/Exceptions.lean ====
section
/-! The obligations of 60_exceptions.md. -/

namespace Sys2Proof.Machine

/-! ### The latched fault -/

/-- Settles O14: the preamble answers every command, no edge but `RST` writes the latch, and so a run without `RST`
keeps it. -/
theorem latchedFaultStopsTheBlock : Obligations.LatchedFaultStopsTheBlock := by
  refine ⟨fun i s => exec_latched, fun s t h hf => ?_, fun s t => not_endsWell_of_latched, fun s hf hi hend => ?_⟩
  · rw [step_fault_of_latched h hf, Bool.not_eq_false']
  · obtain ⟨t, ht, hclear⟩ := hend
    exact Bool.false_ne_true (hclear.symm.trans (run_fault_of_latched ht hf hi))

/-- Settles O18: the update runs into the defect, which commits the latch and the response alone. -/
theorem sentinelCellLatchesTheFault : Obligations.SentinelCellLatchesTheFault :=
  fun _ _ _ _ _ ha hc => exec_update_defect ha hc rfl

/-! ### Illegal commands -/

/-- Settles O15: the preamble writes the response registers alone, and no command reads them. -/
theorem illegalCommandAnswersOnly : Obligations.IllegalCommandAnswersOnly :=
  fun _ s hb hf hl => ⟨_, exec_illegal hb hf hl, rfl, fun j => exec_setResponse j s _ _ _⟩

/-- Settles O16: no variant has a reserved command. -/
theorem reservedOpcodesAnswerIllegal : Obligations.ReservedOpcodesAnswerIllegal :=
  fun u _ hb hf => ⟨exec_illegal (i := .reserved110 u) hb hf rfl, exec_illegal (i := .reserved111 u) hb hf rfl⟩

/-! ### The priority of the statuses -/

/-- Settles O19: the preamble answers the first two; an `UPDATE` that runs answers the table's status of its cell, which
lists the others in their order, and every other command that runs answers OK. -/
theorem statusFollowsThePriority : Obligations.StatusFollowsThePriority := by
  intro i s t h
  obtain ⟨hb, ⟨hf, rfl⟩ | ⟨hf, hl, rfl⟩ | ⟨hf, hl, hbody⟩⟩ := exec_next h
  · rw [if_pos hf]; rfl
  · rw [if_neg (by simp [hf]), if_pos hl]; rfl
  · rw [if_neg (by simp [hf]), if_neg (by simp [hl])]
    cases i with
    | update z a b =>
      obtain ⟨c, hc, hstatus⟩ := updateBody_respStatus hb hl hbody
      simp only [hstatus, hasTransition_of_eq hc, beq_iff_eq, tableStatus]
    | _ => exact bodyOf_respStatus_ok (by simp [Instr.op]) ⟨hb, hf, hl⟩ hbody

/-! ### The recoverable errors -/

/-- Settles O42: the diagonal cell leads to SYNC(IN), the validator's error is the result, and the machine is left sound
with `LAST` = IN, so that only the diagonal partner of IN is an error again. -/
theorem diagonalJumpIsReportedAndRecovered : Obligations.DiagonalJumpIsReportedAndRecovered := by
  intro z a b z' a' b' s hs hspec hlock hv hi
  have ⟨hb, hreach, hf⟩ := hs
  have hc : transition s.rom s.cfg.mode s.fst (sample a b) = some ⟨sync (sample a b), .neutral⟩ := by
    rw [State.onTable, hspec] at hreach
    rw [hspec, hi, hlock]
    exact specTable_diagonal (built_iff.mp hb).1 hreach
  have hr : resolve (validate s.last (sample a b)) Output.neutral.movement = .err (.leaving s.last) := by
    rw [validate_eq_ite_diagonal, if_pos hi]
    rfl
  have hexec := exec_update_eq (z := z) ⟨hb, hf, hv⟩ hc nofun
  rw [hr] at hexec
  refine ⟨_, hexec, ?_, finishUpdate_fst _ _ _, finishUpdate_last _ _ _, (finishUpdate_fault _ _ _).trans hf,
    finishUpdate_counter_of_err _ _ _, fun hnext => ?_⟩
  · exact (finishUpdate_respStatus _ _ (s.setPhase (sync (sample a b)) (sample a b)) hv).trans (code_err_leaving _)
  · exact exec_update_no_error (exec_keeps_sound hs hexec) (by simpa using hv) (by simpa using hnext)

end Sys2Proof.Machine
end

