-- ==== Sys2Proof/Proofs/EndOfRun.lean ====
section
/-! SUPPORT. The end of a run: that a run of a machine that can be built has one, and how it is read off from the last
accepted command. -/

namespace Sys2Proof.Machine

variable {s t : State}

/-- However many edges it is given, a machine that can be built completes them and stays one. -/
theorem run_completes (n : Nat) (hb : s.built) : ∃ t, run n s = .next t ∧ t.built := by
  refine run_keeps (Inv := State.built) (fun s hs => ?_) n hb
  obtain ⟨t, ht⟩ := step_completes hs
  exact ⟨t, ht, step_built hs ht⟩

/-- A run that has an end ends well exactly when the latch is clear there (70_reset_and_hazards.md R266). -/
theorem endsWell_iff_fault (h : s.endOfRun = .next t) : s.endsWell ↔ t.fault = false := by
  constructor
  · rintro ⟨u, hu, hf⟩
    cases h.symm.trans hu
    exact hf
  · exact fun hf => ⟨t, h, hf⟩

/-- A run without an accepted command takes no edge (log entry 11). -/
theorem endOfRun_of_no_command (h : ∀ q ∈ s.inputs, q.rst = true ∨ q.cmdValid = false) : s.endOfRun = .next s := by
  rw [State.endOfRun, edgesToLastCommand_eq_zero h, run_zero]

/-- The last accepted command is the last edge of a run: the run takes the edges before it, and then its step
(70_reset_and_hazards.md R266). -/
theorem endOfRun_eq_step {u : State} {before rest : List PortInput} {p : PortInput}
    (hi : s.inputs = before ++ p :: rest) (hp : p.acceptsCommand = true)
    (hrest : ∀ q ∈ rest, q.rst = true ∨ q.cmdValid = false) (hu : run before.length s = .next u) :
    s.endOfRun = step u := by
  rw [State.endOfRun, hi, edgesToLastCommand_of_last before hp hrest, run_add_one hu]

/-- Edges without a command behind the others are still to come at the end of the run (70_reset_and_hazards.md R266). -/
theorem endOfRun_appendInputs {later : List PortInput} (hlater : ∀ q ∈ later, q.rst = true ∨ q.cmdValid = false)
    (h : s.endOfRun = .next t) :
    { s with inputs := s.inputs ++ later }.endOfRun = .next { t with inputs := t.inputs ++ later } := by
  rw [State.endOfRun, edgesToLastCommand_append s.inputs hlater]
  exact run_appendInputs later (edgesToLastCommand_le s.inputs) h

/-- The run from a sound state has an end, which is sound (40_transducer.md R113). -/
theorem endOfRun_sound (hs : s.sound) : ∃ t, s.endOfRun = .next t ∧ t.sound :=
  run_keeps soundStatesRunForever _ hs

/-- The run from a sound state ends well, since the latch is clear in every sound state. -/
theorem endsWell_of_sound (hs : s.sound) : s.endsWell := by
  obtain ⟨t, ht, -, -, hf⟩ := endOfRun_sound hs
  exact ⟨t, ht, hf⟩

end Sys2Proof.Machine
end

