-- ==== Sys2Proof/Proofs/ResetAndHazards.lean ====
section
/-! The obligations of 70_reset_and_hazards.md. -/

namespace Sys2Proof.Machine

/-! ### Reset -/

/-- Settles O9: the edge is the one of the next input, which is a reset, and the reset of each kind of register turns on
whether the variant has it. -/
theorem rstLoadsTheResetValues : Obligations.RstLoadsTheResetValues := by
  intro s p rest hb hi hp
  have hstep : step s = .next ({ s with inputs := rest } : State).rst :=
    (step_eq_clockEdge hi).trans (clockEdge_rst (s := { s with inputs := rest }) hb hp)
  refine ⟨_, hstep, rfl, rfl, rfl, rfl, rfl, rfl, rfl, ?_, ?_, ?_⟩
  · cases hd : s.cfg.variant.hasDecoder <;> simp [hd]
  · cases hc : s.cfg.variant.hasCounter <;> simp [hc]
  · cases hx : s.cfg.variant.hasIndex <;> simp [hx]

/-- With the latch clear, the writes and the response of `RESET` differ from those of `RST` in `RESP_VALID` alone
(70_reset_and_hazards.md R253). -/
theorem commandReset_respond_eq_rst {s : State} (hf : s.fault = false) :
    s.commandReset.respond .ok 0#128 = { s.rst with respValid := true } := by
  rw [commandReset_eq]
  simp [State.respond, State.rst, Status.code, hf]

/-- Settles O50: the preamble answers while the latch is set; otherwise the two resets leave the same state but for a
response register, and no command reads those. -/
theorem resetCommandMatchesRst : Obligations.ResetCommandMatchesRst := by
  intro u s r p hb hp hr
  cases (clockEdge_rst hb hp).symm.trans hr
  refine ⟨fun hf => ⟨_, exec_latched hb hf, hf⟩, fun hf => ?_⟩
  have hexec : exec (.reset u) s = .next { s.rst with respValid := true } :=
    (exec_accepts (i := .reset u) ⟨hb, hf, rfl⟩).trans (congrArg Host.Outcome.next (commandReset_respond_eq_rst hf))
  exact ⟨_, hexec, rfl, rfl, rfl, rfl, fun i => exec_setResponse i s.rst true s.rst.respStatus s.rst.respData⟩

/-! ### The first sample -/

/-- The outputs of the row of `N0` in the spec's tables: a movement on the two quarters in QUAD, else Neutral
(40_transducer.md R105 to R107). -/
theorem specTable_N0_out {mode : Mode} (h : mode ≠ .code3) {i : Sample} {c : Transition}
    (hc : transition [] mode .N0 i = some c) :
    c.out = if mode = .quad ∧ i = 0b01#2 then .forward else if mode = .quad ∧ i = 0b10#2 then .reverse
      else .neutral := by
  revert i c
  cases mode with
  | full => decide
  | half => decide
  | quad => decide
  | code3 => exact absurd rfl h

/-- The table's status of those cells after `LAST` = 11: `00` is the diagonal partner of 11, and the other samples
answer the output of their cell (70_reset_and_hazards.md R255). -/
theorem tableStatus_N0_row (mode : Mode) (i : Sample) :
    tableStatus 0b11#2 i (if mode = .quad ∧ i = 0b01#2 then .forward else if mode = .quad ∧ i = 0b10#2 then .reverse
      else .neutral) =
    if i = 0b00#2 then 0x7#4
    else if i = 0b01#2 then (if mode = .quad then 0x1#4 else 0x0#4)
    else if i = 0b10#2 then (if mode = .quad then 0x2#4 else 0x0#4)
    else 0x0#4 := by
  by_cases hq : mode = .quad
  · simp only [hq, true_and, if_true]
    revert i; decide
  · simp only [hq, false_and, if_false]
    revert i; decide

/-- Settles O44: just after reset the machine is sound, so the update completes with the table's status of the cell of
`N0` it reads. -/
theorem firstSampleAfterReset : Obligations.FirstSampleAfterReset := by
  intro cfg inputs z a b hc hv
  have hmode : cfg.mode ≠ .code3 := by simpa [Config.modeLegal] using (Bool.and_eq_true_iff.mp hc).1
  obtain ⟨t, c, hexec, hcell, -, -, -, -, hstatus, -⟩ :=
    updateCompletesFromSoundStates z a b _ (afterRst_sound hc (specTable_wf hmode) inputs) hv
  have hout := specTable_N0_out hmode hcell
  exact ⟨t, hexec, hstatus.trans (hout ▸ tableStatus_N0_row cfg.mode (sample a b))⟩

/-! ### The end of a run -/

/-- Settles O55: the edges before the command complete, its input is then the next one, and the run ends with its
step. -/
theorem runEndsAfterTheLastCommand : Obligations.RunEndsAfterTheLastCommand := by
  refine ⟨fun s before rest p hb hi hr hc hrest => ?_, fun _ => endOfRun_of_no_command⟩
  obtain ⟨u, hu, hbu⟩ := run_completes before.length hb
  have hiu : u.inputs = p :: rest := by rw [run_inputs hu, hi, List.drop_left]
  have hstep : step u = exec (decode ⟨p.cmd, p.dataIn⟩) { u with inputs := rest } :=
    stepRunsTheDecodedCommand u p rest hbu hiu hr hc
  obtain ⟨t, ht⟩ := exec_completes (s := { u with inputs := rest }) hbu (decode ⟨p.cmd, p.dataIn⟩)
  have hend : s.endOfRun = .next t := by
    rw [endOfRun_eq_step hi (acceptsCommand_eq_true.mpr ⟨hr, hc⟩) hrest hu, hstep, ht]
  exact ⟨u, t, hu, ht, hend, exec_respValid ht, endsWell_iff_fault hend⟩

/-- Settles O56: the end of the run carries the appended edges along, and they leave the latch there as it is. -/
theorem laterEdgesDoNotMoveTheEnd : Obligations.LaterEdgesDoNotMoveTheEnd := by
  intro s t later hlater h
  have hend := endOfRun_appendInputs hlater h
  exact ⟨hend, (endsWell_iff_fault h).trans (endsWell_iff_fault hend).symm⟩

/-- Settles O57: every step keeps the machine sound, and the state just after reset is sound. -/
theorem soundRunsEndWell : Obligations.SoundRunsEndWell :=
  ⟨fun _ hs => ⟨endsWell_of_sound hs, endOfRun_sound hs⟩,
    fun _ _ inputs hc ht => endsWell_of_sound (afterRst_sound hc ht inputs)⟩

end Sys2Proof.Machine
end
